-- ==== Sys2Proof/Word.lean ====
section
/-! DEFINITION. The word types of the crab-8 CORE (spec/00_scope.md section 5, spec/10_state.md). -/

namespace Sys2Proof

/-- An 8-bit value: a general register, a timer, a byte of memory (10_state R20, R28, R29; 20_memory R50). -/
abbrev Byte := BitVec 8

/-- A 16-bit value: `I`, `pc`, a stack entry, an instruction word (10_state R23, R24, R26; 30_encoding R70). -/
abbrev Word := BitVec 16

/-- The 12-bit address field `nnn` of an instruction word (30_encoding R71). -/
abbrev Addr12 := BitVec 12

/-- The number of a general register, V0 to VF, "a 4-bit index (0–15)" (10_state R20). -/
abbrev Reg := Fin 16

/-- The number of a key, 0 to F (10_state R42). -/
abbrev Key := Fin 16

/-- VF, the flag register (10_state R21). -/
abbrev VF : Reg := 15

end Sys2Proof
end

