-- ==== Sys2Proof/Syntax.lean ====
section
/-! DEFINITION. The 35 instructions of the crab-8 CORE (30_encoding R76), one constructor per row of
spec/opcode_table.json, in the table's order. -/

namespace Sys2Proof

/-- An instruction with the operand fields its rule names (30_encoding R71, R72, R76).
SHR and SHL keep `y`, which they ignore when P_SHIFT_SOURCE is VX (30_encoding R78). -/
inductive Instr where
  /-- CLS, `00E0` -/
  | cls
  /-- RET, `00EE` -/
  | ret
  /-- SYS addr, `0nnn` other than `00E0` and `00EE` -/
  | sys (nnn : Addr12)
  /-- JP addr, `1nnn` -/
  | jp (nnn : Addr12)
  /-- CALL addr, `2nnn` -/
  | call (nnn : Addr12)
  /-- SE Vx, byte, `3xkk` -/
  | seByte (x : Reg) (kk : Byte)
  /-- SNE Vx, byte, `4xkk` -/
  | sneByte (x : Reg) (kk : Byte)
  /-- SE Vx, Vy, `5xy0` -/
  | seReg (x y : Reg)
  /-- LD Vx, byte, `6xkk` -/
  | ldByte (x : Reg) (kk : Byte)
  /-- ADD Vx, byte, `7xkk` -/
  | addByte (x : Reg) (kk : Byte)
  /-- LD Vx, Vy, `8xy0` -/
  | ldReg (x y : Reg)
  /-- OR Vx, Vy, `8xy1` -/
  | orReg (x y : Reg)
  /-- AND Vx, Vy, `8xy2` -/
  | andReg (x y : Reg)
  /-- XOR Vx, Vy, `8xy3` -/
  | xorReg (x y : Reg)
  /-- ADD Vx, Vy, `8xy4` -/
  | addReg (x y : Reg)
  /-- SUB Vx, Vy, `8xy5` -/
  | sub (x y : Reg)
  /-- SHR Vx {, Vy}, `8xy6` -/
  | shr (x y : Reg)
  /-- SUBN Vx, Vy, `8xy7` -/
  | subn (x y : Reg)
  /-- SHL Vx {, Vy}, `8xyE` -/
  | shl (x y : Reg)
  /-- SNE Vx, Vy, `9xy0` -/
  | sneReg (x y : Reg)
  /-- LD I, addr, `Annn` -/
  | ldI (nnn : Addr12)
  /-- JP V0, addr, `Bnnn` -/
  | jpV0 (nnn : Addr12)
  /-- RND Vx, byte, `Cxkk` -/
  | rnd (x : Reg) (kk : Byte)
  /-- DRW Vx, Vy, nibble, `Dxyn`; `n` is the number of sprite rows, 0 to 15 -/
  | drw (x y : Reg) (n : Fin 16)
  /-- SKP Vx, `Ex9E` -/
  | skp (x : Reg)
  /-- SKNP Vx, `ExA1` -/
  | sknp (x : Reg)
  /-- LD Vx, DT, `Fx07` -/
  | ldVxDT (x : Reg)
  /-- LD Vx, K, `Fx0A` -/
  | ldVxK (x : Reg)
  /-- LD DT, Vx, `Fx15` -/
  | ldDTVx (x : Reg)
  /-- LD ST, Vx, `Fx18` -/
  | ldSTVx (x : Reg)
  /-- ADD I, Vx, `Fx1E` -/
  | addI (x : Reg)
  /-- LD F, Vx, `Fx29` -/
  | ldF (x : Reg)
  /-- LD B, Vx, `Fx33` -/
  | ldB (x : Reg)
  /-- LD [I], Vx, `Fx55` -/
  | storeRegs (x : Reg)
  /-- LD Vx, [I], `Fx65` -/
  | loadRegs (x : Reg)
  deriving DecidableEq, Repr

end Sys2Proof
end

