-- ==== Sys2Proof/Decode.lean ====
section
/-! DEFINITION. The decoder of 30_encoding R73, total on every word and every byte string, and the encoder
written from the patterns of R76. The opcode values are the spec's own supply (log entry 9). -/

namespace Sys2Proof

/-! ### The fields of an instruction word (30_encoding R71) -/

/-- `op = w[15:12]`, the primary opcode. -/
def fieldOp (w : Word) : BitVec 4 := w.extractLsb' 12 4

/-- `x = w[11:8]`, the first register index. -/
def fieldX (w : Word) : Reg := (w.extractLsb' 8 4).toFin

/-- `y = w[7:4]`, the second register index. -/
def fieldY (w : Word) : Reg := (w.extractLsb' 4 4).toFin

/-- `n = w[3:0]`, a row count or a secondary opcode. -/
def fieldN (w : Word) : BitVec 4 := w.extractLsb' 0 4

/-- `kk = w[7:0]`, an immediate byte or a secondary opcode. -/
def fieldKK (w : Word) : Byte := w.extractLsb' 0 8

/-- `nnn = w[11:0]`, an address. -/
def fieldNNN (w : Word) : Addr12 := w.extractLsb' 0 12

/-! ### Decode -/

/-- Group 0x0: CLS and RET take precedence, every other word is SYS (30_encoding R74). -/
def decodeGroup0 (w : Word) : Instr :=
  if w = 0x00E0 then .cls else if w = 0x00EE then .ret else .sys (fieldNNN w)

/-- Group 0x8, by the low nibble (30_encoding R73). -/
def decodeGroup8 (w : Word) : Option Instr :=
  match fieldN w with
  | 0x0#4 => some (.ldReg (fieldX w) (fieldY w))
  | 0x1#4 => some (.orReg (fieldX w) (fieldY w))
  | 0x2#4 => some (.andReg (fieldX w) (fieldY w))
  | 0x3#4 => some (.xorReg (fieldX w) (fieldY w))
  | 0x4#4 => some (.addReg (fieldX w) (fieldY w))
  | 0x5#4 => some (.sub (fieldX w) (fieldY w))
  | 0x6#4 => some (.shr (fieldX w) (fieldY w))
  | 0x7#4 => some (.subn (fieldX w) (fieldY w))
  | 0xE#4 => some (.shl (fieldX w) (fieldY w))
  | _ => none

/-- Group 0xE, by the low byte (30_encoding R73). -/
def decodeGroupE (w : Word) : Option Instr :=
  match fieldKK w with
  | 0x9E#8 => some (.skp (fieldX w))
  | 0xA1#8 => some (.sknp (fieldX w))
  | _ => none

/-- Group 0xF, by the low byte (30_encoding R73). -/
def decodeGroupF (w : Word) : Option Instr :=
  match fieldKK w with
  | 0x07#8 => some (.ldVxDT (fieldX w))
  | 0x0A#8 => some (.ldVxK (fieldX w))
  | 0x15#8 => some (.ldDTVx (fieldX w))
  | 0x18#8 => some (.ldSTVx (fieldX w))
  | 0x1E#8 => some (.addI (fieldX w))
  | 0x29#8 => some (.ldF (fieldX w))
  | 0x33#8 => some (.ldB (fieldX w))
  | 0x55#8 => some (.storeRegs (fieldX w))
  | 0x65#8 => some (.loadRegs (fieldX w))
  | _ => none

/-- `Decode(w)` of 30_encoding R73; `none` is its verdict "invalid" (R77). Groups 0x5 and 0x9 take only
n = 0 (R75). -/
def decodeWord (w : Word) : Option Instr :=
  match fieldOp w with
  | 0x0#4 => some (decodeGroup0 w)
  | 0x1#4 => some (.jp (fieldNNN w))
  | 0x2#4 => some (.call (fieldNNN w))
  | 0x3#4 => some (.seByte (fieldX w) (fieldKK w))
  | 0x4#4 => some (.sneByte (fieldX w) (fieldKK w))
  | 0x5#4 => if fieldN w = 0 then some (.seReg (fieldX w) (fieldY w)) else none
  | 0x6#4 => some (.ldByte (fieldX w) (fieldKK w))
  | 0x7#4 => some (.addByte (fieldX w) (fieldKK w))
  | 0x8#4 => decodeGroup8 w
  | 0x9#4 => if fieldN w = 0 then some (.sneReg (fieldX w) (fieldY w)) else none
  | 0xA#4 => some (.ldI (fieldNNN w))
  | 0xB#4 => some (.jpV0 (fieldNNN w))
  | 0xC#4 => some (.rnd (fieldX w) (fieldKK w))
  | 0xD#4 => some (.drw (fieldX w) (fieldY w) (fieldN w).toFin)
  | 0xE#4 => decodeGroupE w
  | _ => decodeGroupF w

/-- Why a byte string is no instruction. -/
inductive DecodeReject where
  /-- the word matches no instruction; it carries the two raw bytes (30_encoding R77) -/
  | illegalWord (hi lo : Byte)
  /-- fewer than the two bytes an instruction has (30_encoding R79) -/
  | truncated
  deriving DecidableEq, Repr

/-- The instruction at the head of a byte string and the bytes after it: the byte at the lower address is
the high byte of the word (20_memory R56), and "a decoder always consumes exactly two bytes" (R79). -/
def decode : List Byte → Except DecodeReject (Instr × List Byte)
  | hi :: lo :: rest =>
    match decodeWord (hi ++ lo) with
    | some i => .ok (i, rest)
    | none => .error (.illegalWord hi lo)
  | _ => .error .truncated

/-! ### Encode -/

/-- A word from its opcode and an address field: pattern `Pnnn`. -/
def wordAddr (op : BitVec 4) (nnn : Addr12) : Word := op ++ nnn

/-- A word from its opcode, a register and a byte: pattern `Pxkk`. -/
def wordByte (op : BitVec 4) (x : Reg) (kk : Byte) : Word := op ++ (BitVec.ofFin x : BitVec 4) ++ kk

/-- A word from its opcode, two registers and a nibble: pattern `Pxyn`. -/
def wordRegs (op : BitVec 4) (x y : Reg) (n : BitVec 4) : Word :=
  op ++ (BitVec.ofFin x : BitVec 4) ++ (BitVec.ofFin y : BitVec 4) ++ n

/-- The word of an instruction, by the patterns of 30_encoding R76. -/
def encodeWord : Instr → Word
  | .cls => 0x00E0
  | .ret => 0x00EE
  | .sys nnn => wordAddr 0x0 nnn
  | .jp nnn => wordAddr 0x1 nnn
  | .call nnn => wordAddr 0x2 nnn
  | .seByte x kk => wordByte 0x3 x kk
  | .sneByte x kk => wordByte 0x4 x kk
  | .seReg x y => wordRegs 0x5 x y 0x0
  | .ldByte x kk => wordByte 0x6 x kk
  | .addByte x kk => wordByte 0x7 x kk
  | .ldReg x y => wordRegs 0x8 x y 0x0
  | .orReg x y => wordRegs 0x8 x y 0x1
  | .andReg x y => wordRegs 0x8 x y 0x2
  | .xorReg x y => wordRegs 0x8 x y 0x3
  | .addReg x y => wordRegs 0x8 x y 0x4
  | .sub x y => wordRegs 0x8 x y 0x5
  | .shr x y => wordRegs 0x8 x y 0x6
  | .subn x y => wordRegs 0x8 x y 0x7
  | .shl x y => wordRegs 0x8 x y 0xE
  | .sneReg x y => wordRegs 0x9 x y 0x0
  | .ldI nnn => wordAddr 0xA nnn
  | .jpV0 nnn => wordAddr 0xB nnn
  | .rnd x kk => wordByte 0xC x kk
  | .drw x y n => wordRegs 0xD x y (BitVec.ofFin n)
  | .skp x => wordByte 0xE x 0x9E
  | .sknp x => wordByte 0xE x 0xA1
  | .ldVxDT x => wordByte 0xF x 0x07
  | .ldVxK x => wordByte 0xF x 0x0A
  | .ldDTVx x => wordByte 0xF x 0x15
  | .ldSTVx x => wordByte 0xF x 0x18
  | .addI x => wordByte 0xF x 0x1E
  | .ldF x => wordByte 0xF x 0x29
  | .ldB x => wordByte 0xF x 0x33
  | .storeRegs x => wordByte 0xF x 0x55
  | .loadRegs x => wordByte 0xF x 0x65

/-- The high byte of a word, stored at the lower address (20_memory R56). -/
def highByte (w : Word) : Byte := w.extractLsb' 8 8

/-- The low byte of a word. -/
def lowByte (w : Word) : Byte := w.extractLsb' 0 8

/-- The two bytes of an instruction as they lie in memory, the high byte first (20_memory R56). -/
def encode (i : Instr) : List Byte := [highByte (encodeWord i), lowByte (encodeWord i)]

/-! ### The opcode table's numbering -/

/-- The 16-bit word of an opcode-table row of `nbits` bits `w`; the bits above `nbits` are 0. -/
def tableWord (nbits w : Nat) : Word := BitVec.ofNat 16 (w % 2 ^ nbits)

/-- The instruction the decoder reads from a table row's word, laid out as the hardware stores it. -/
def decodeTableWord (nbits w : Nat) : Option Instr :=
  match decode [highByte (tableWord nbits w), lowByte (tableWord nbits w)] with
  | .ok (i, _) => some i
  | .error _ => none

end Sys2Proof
end

