-- ==== Sys2Proof/Config.lean ====
section
/-! DEFINITION. What is fixed for a machine (the parameters of 00_scope R8) and what the environment
gives it (the step inputs of 10_state R42), with the free inputs as a constant that has no body. -/

namespace Sys2Proof.Config

/-- P_LOAD_OFFSET: "conventionally 0x200, or 0x600 for an alternate legacy mode" (00_scope R8). -/
inductive LoadOffset where
  | conventional
  | alternate
  deriving DecidableEq, Repr

/-- P_SHIFT_SOURCE: the register SHR and SHL shift (00_scope R8, 42_alu section 6). -/
inductive ShiftSource where
  | vx
  | vy
  deriving DecidableEq, Repr

/-- P_TIMER_PHASE: where the timer phase stands in a step (00_scope R8, 30_encoding R90). -/
inductive TimerOrder where
  | before
  | after
  deriving DecidableEq, Repr

/-- The configuration parameters of 00_scope R8, fixed for a run and not writable by a program
(10_state R31). The defaults stand in Machine/Defaults.lean. -/
structure Params where
  /-- P_LOAD_OFFSET -/
  loadOffset : LoadOffset
  /-- P_SHIFT_SOURCE -/
  shiftSource : ShiftSource
  /-- P_LOADSTORE_INC_I -/
  loadStoreIncI : Bool
  /-- P_PROTECT_RESERVED -/
  protectReserved : Bool
  /-- P_FONT -/
  font : Vector Byte 80
  /-- P_TIMER_PHASE -/
  timerPhase : TimerOrder
  deriving DecidableEq, Repr

/-- The inputs of one step, "a snapshot the host provides as of the current step" (10_state R42). -/
structure StepInput where
  /-- a 60 Hz tick boundary was crossed since the previous sample -/
  tick : Bool
  /-- a random byte -/
  rnd : Byte
  /-- "is key K (0–F) held" -/
  held : Vector Bool 16
  /-- "most recently pressed key, if any" -/
  lastKey : Option Key
  deriving DecidableEq, Repr, Inhabited

/-- FREE VALUE (DESIGN CHOICE, safe; log entry 1): the snapshot of the `n`-th step for which `State.inputs`
lines none up. "Each input is a free draw: the block places no law on it" (10_state R42), so it has no body. -/
opaque freeInput : Nat → StepInput

end Sys2Proof.Config
end

