-- ==== Sys2Proof/Machine/Defaults.lean ====
section
/-! DEFINITION. The values the spec gives the configuration parameters (00_scope R8) and the sizes it
fixes (R6). -/

namespace Sys2Proof.Machine

/-- MEM_SIZE, "4096 bytes, addresses 0x000 to 0xFFF" (00_scope R6; 20_memory R50). -/
def memSize : Nat := 0x1000

/-- RESERVED_END: "addresses 0x000 to 0x1FF are reserved for the interpreter" (00_scope R6). -/
def reservedEnd : Nat := 0x1FF

/-- The address P_LOAD_OFFSET stands for: 0x200 or 0x600 (00_scope R8). -/
def loadAddress : Config.LoadOffset → Word
  | .conventional => 0x200
  | .alternate => 0x600

/-- The glyphs of the digits 0 to 7, five bytes each (70_reset_and_hazards R241; log entry 10). -/
def glyphs0to7 : List Byte :=
  [0xF0, 0x90, 0x90, 0x90, 0xF0] ++ [0x20, 0x60, 0x20, 0x20, 0x70] ++
  [0xF0, 0x10, 0xF0, 0x80, 0xF0] ++ [0xF0, 0x10, 0xF0, 0x10, 0xF0] ++
  [0x90, 0x90, 0xF0, 0x10, 0x10] ++ [0xF0, 0x80, 0xF0, 0x10, 0xF0] ++
  [0xF0, 0x80, 0xF0, 0x90, 0xF0] ++ [0xF0, 0x10, 0x20, 0x40, 0x40]

/-- The glyphs of the digits 8 to F, five bytes each (70_reset_and_hazards R241; log entry 10). -/
def glyphs8toF : List Byte :=
  [0xF0, 0x90, 0xF0, 0x90, 0xF0] ++ [0xF0, 0x90, 0xF0, 0x10, 0xF0] ++
  [0xF0, 0x90, 0xF0, 0x90, 0x90] ++ [0xE0, 0x90, 0xE0, 0x90, 0xE0] ++
  [0xF0, 0x80, 0x80, 0x80, 0xF0] ++ [0xE0, 0x90, 0x90, 0x90, 0xE0] ++
  [0xF0, 0x80, 0xF0, 0x80, 0xF0] ++ [0xF0, 0x80, 0xF0, 0x80, 0x80]

/-- The default P_FONT: byte `5 * d + k` is byte `k` of the glyph of digit `d` (70_reset_and_hazards R241;
PRESUMED by the spec, unsafe; log entry 10). -/
def defaultFont : Vector Byte 80 := ⟨⟨glyphs0to7 ++ glyphs8toF⟩, rfl⟩

/-- The defaults of 00_scope R8 (log entry 2). -/
def defaultParams : Config.Params where
  loadOffset := .conventional
  shiftSource := .vx
  loadStoreIncI := false
  protectReserved := true
  font := defaultFont
  timerPhase := .before

end Sys2Proof.Machine
end

