-- ==== Sys2Proof/Machine/Memory.lean ====
section
/-! DEFINITION. Memory as plain data: the bytes that differ from the reset contents, by rising address
(20_memory R50, R51; log entry 5). -/

namespace Sys2Proof.Machine

/-- The listed bytes of memory. -/
abbrev Memory := List Host.Cell

/-- What an unlisted address reads as: the contents of memory after reset without an image, "memory
zero-filled then font-loaded" (70_reset_and_hazards R240; 20_memory R51). -/
def Memory.background (font : Vector Byte 80) (a : Nat) : Byte :=
  if h : a < 80 then font[a] else 0

/-- The byte at address `a`. -/
def Memory.read (font : Vector Byte 80) : Memory → Nat → Byte
  | [], a => Memory.background font a
  | (b, v) :: m, a => if a = b then v else Memory.read font m a

/-- List `v` at `a` in front of `m`, unless `a` reads as `v` unlisted. -/
def Memory.list (font : Vector Byte 80) (a : Nat) (v : Byte) (m : Memory) : Memory :=
  if v = Memory.background font a then m else (a, v) :: m

/-- Memory with the byte at `a` replaced by `v`, in canonical form again. -/
def Memory.write (font : Vector Byte 80) : Memory → Nat → Byte → Memory
  | [], a, v => Memory.list font a v []
  | (b, w) :: m, a, v =>
    if a < b then Memory.list font a v ((b, w) :: m)
    else if a = b then Memory.list font a v m
    else (b, w) :: Memory.write font m a v

/-- Memory with the bytes `vs` written at `a`, `a + 1`, .... -/
def Memory.writeAll (font : Vector Byte 80) : Memory → Nat → List Byte → Memory
  | m, _, [] => m
  | m, a, v :: vs => Memory.writeAll font (Memory.write font m a v) (a + 1) vs

/-- The canonical form: addresses strictly rising and inside memory, and no entry that equals what its
address reads as unlisted. -/
def Memory.wf (font : Vector Byte 80) : Memory → Bool
  | [] => true
  | (a, v) :: m =>
    decide (a < memSize) && (v != Memory.background font a) && m.all (fun c => decide (a < c.1)) &&
      Memory.wf font m

end Sys2Proof.Machine
end

