-- ==== Sys2Proof/Machine/State.lean ====
section
/-! DEFINITION. The machine's state (10_state R35), the ways a step can fail (60_exceptions R210), and the
state after reset (70_reset_and_hazards R240). -/

namespace Sys2Proof.Machine

/-- A failure of a step: its kind and its info (60_exceptions R210). -/
inductive Failure where
  /-- the word matches no instruction; its two raw bytes (R211) -/
  | decodeFailure (hi lo : Byte)
  /-- fetch with pc + 1 above 0xFFF; the pc (R212) -/
  | fetchOutOfRange (pc : Word)
  /-- a data read above 0xFFF; the address (R213) -/
  | memReadOutOfRange (addr : Nat)
  /-- a data write above 0xFFF; the address (R214) -/
  | memWriteOutOfRange (addr : Nat)
  /-- a data write at or below 0x1FF when P_PROTECT_RESERVED; the address (R215) -/
  | reservedWrite (addr : Nat)
  /-- a CALL with 16 saved addresses; its pc (R216) -/
  | stackOverflow (pc : Word)
  /-- a RET with none; its pc (R217) -/
  | stackUnderflow (pc : Word)
  /-- SKP or SKNP of a value above 0xF; the value (R218) -/
  | keyOutOfRange (v : Byte)
  deriving DecidableEq, Repr

/-- The `status` of the block: Running, or Failed(kind, info) (10_state R33). -/
inductive Status where
  | running
  | failed (f : Failure)
  deriving DecidableEq, Repr

/-- The pixel grid, `disp[r][c]`: 32 rows of 64 pixels, true means on (10_state R30). -/
abbrev Display := Vector (Vector Bool 64) 32

/-- The whole state. The fields down to `status` are those of 10_state R35, under the spec's names;
the last three are the model's own (log entries 1 and 2). -/
structure State where
  /-- the general registers V0 to VF (R20) -/
  V : Vector Byte 16
  /-- the address register (R23) -/
  I : Word
  /-- the program counter (R24) -/
  pc : Word
  /-- the stack pointer, the number of saved return addresses (R26) -/
  sp : Fin 17
  /-- the call stack (R26) -/
  stack : Vector Word 16
  /-- the delay timer (R28) -/
  DT : Byte
  /-- the sound timer (R29) -/
  ST : Byte
  /-- the display surface (R30) -/
  disp : Display
  /-- memory, in canonical form (20_memory R50) -/
  mem : Memory
  /-- whether a step has established the timer epoch (R32) -/
  epoch : Bool
  /-- Running or Failed (R33) -/
  status : Status
  /-- the configuration parameters of 00_scope R8, fixed for a run (log entry 2) -/
  params : Config.Params
  /-- the input snapshots lined up for the coming steps, oldest first (10_state R42; log entry 1) -/
  inputs : List Config.StepInput
  /-- the number of the next free snapshot, used when `inputs` is empty (log entry 1) -/
  draw : Nat
  deriving DecidableEq, Repr

/-- Why a step is not taken. -/
inductive Fault where
  /-- Raised by `step` when `status` is Failed: "step() is not enabled and the state does not change; only
  reset returns status to Running" (60_exceptions R221). Safe: the run ends. -/
  | blockFailed (f : Failure)
  deriving DecidableEq, Repr

/-- Why the model gives no answer. -/
inductive Refusal where
  /-- An instruction without a meaning yet, raised in `exec`'s arm. Safe. No arm raises it. -/
  | notModelled (mnemonic : String)
  /-- Raised by `State.resetWith` when P_LOAD_OFFSET + len exceeds 0x1000: "refuse the load"
  (70_reset_and_hazards R242). It carries len. Safe: no state is created. -/
  | imageTooLong (len : Nat)
  deriving DecidableEq, Repr

/-- The outcome of an instruction or a step. -/
abbrev Result := Host.Outcome State Fault Refusal

/-- The state of 70_reset_and_hazards R240 before the image is loaded, at parameters `p`. -/
def State.initial (p : Config.Params) : State where
  V := Vector.replicate 16 0
  I := 0
  pc := loadAddress p.loadOffset
  sp := 0
  stack := Vector.replicate 16 0
  DT := 0
  ST := 0
  disp := Vector.replicate 32 (Vector.replicate 64 false)
  mem := []
  epoch := false
  status := .running
  params := p
  inputs := []
  draw := 0

/-- The machine right after reset, at the default parameters and with the empty image, which
70_reset_and_hazards R242 accepts (log entries 1, 2 and 6). -/
def State.reset : State := State.initial defaultParams

end Sys2Proof.Machine
end

