-- ==== Sys2Proof/Machine/Ops.lean ====
section
/-! DEFINITION. The named operations over registers, memory, the stack, the timers and the inputs, taking a
failure, and the host's operations on the block. -/

namespace Sys2Proof.Machine

/-! ### Registers -/

/-- `V[r]`. -/
def State.reg (s : State) (r : Reg) : Byte := s.V[r.val]

/-- `V[r] <- b`. -/
def State.setReg (s : State) (r : Reg) (b : Byte) : State := { s with V := s.V.set r.val b }

/-- `I <- a`. -/
def State.setI (s : State) (a : Word) : State := { s with I := a }

/-- `pc <- target`, the successor the instruction returns. -/
def State.setPc (s : State) (target : Word) : State := { s with pc := target }

/-- `pc <- pc + n`, modulo 2^16 (10_state R24; log entry 7). -/
def State.advance (s : State) (n : Word) : State := s.setPc (s.pc + n)

/-- `DT <- b`. -/
def State.setDT (s : State) (b : Byte) : State := { s with DT := b }

/-- `ST <- b`. -/
def State.setST (s : State) (b : Byte) : State := { s with ST := b }

/-- Replace the pixel grid. -/
def State.setDisp (s : State) (d : Display) : State := { s with disp := d }

/-- Replace memory. -/
def State.setMem (s : State) (m : Memory) : State := { s with mem := m }

/-- Replace the stack pointer and the stack. -/
def State.setStack (s : State) (sp : Fin 17) (stack : Vector Word 16) : State :=
  { s with sp := sp, stack := stack }

/-- Write `bs` to V0, V1, ... in turn, from register `k` on; what lies beyond VF is dropped. -/
def State.setRegsFrom (s : State) : Nat → List Byte → State
  | _, [] => s
  | k, b :: bs => (if h : k < 16 then s.setReg ⟨k, h⟩ b else s).setRegsFrom (k + 1) bs

/-! ### Failures: the block's only exception (60_exceptions R210, R220, R222) -/

/-- Take failure `f`: "every register, the stack, the timers, epoch, memory and the display hold their
values from before the step, and only `status` changes" (60_exceptions R220; log entry 3). There is no
return from a failure but reset (R221, R223). -/
def State.fail (s : State) (f : Failure) : State := { s with status := .failed f }

/-- The cause code of a failure (60_exceptions R210). -/
def Failure.code : Failure → Nat
  | .decodeFailure _ _ => 1
  | .fetchOutOfRange _ => 2
  | .memReadOutOfRange _ => 3
  | .memWriteOutOfRange _ => 4
  | .reservedWrite _ => 5
  | .stackOverflow _ => 6
  | .stackUnderflow _ => 7
  | .keyOutOfRange _ => 8

/-- The end of an instruction that may `raise`: the state it computed, or `s` with the failure taken and
none of its writes (30_encoding R91). -/
def State.orFail (s : State) : Except Failure State → Result
  | .ok t => .next t
  | .error f => .next (s.fail f)

/-! ### Memory (20_memory R53 to R55; log entry 8) -/

/-- The byte memory holds at `a`. -/
def State.byteAt (s : State) (a : Nat) : Byte := Memory.read s.params.font s.mem a

/-- `MemRead(addr, 1)` (20_memory R53). -/
def State.memRead (s : State) (a : Nat) : Except Failure Byte :=
  if a < memSize then .ok (s.byteAt a) else .error (.memReadOutOfRange a)

/-- `MemWrite(addr, 1, v)`: the range check comes before the reserved check (20_memory R54,
60_exceptions R219). -/
def State.memWrite (s : State) (a : Nat) (v : Byte) : Except Failure State :=
  if memSize ≤ a then .error (.memWriteOutOfRange a)
  else if s.params.protectReserved && decide (a ≤ reservedEnd) then .error (.reservedWrite a)
  else .ok (s.setMem (Memory.write s.params.font s.mem a v))

/-- `n` reads at `a`, `a + 1`, ..., ending at the first that fails. -/
def State.loadBytes (s : State) : Nat → Nat → Except Failure (List Byte)
  | _, 0 => .ok []
  | a, n + 1 =>
    match s.memRead a with
    | .error f => .error f
    | .ok b =>
      match s.loadBytes (a + 1) n with
      | .error f => .error f
      | .ok bs => .ok (b :: bs)

/-- Writes of `vs` at `a`, `a + 1`, ..., ending at the first that fails. -/
def State.storeBytes (s : State) : Nat → List Byte → Except Failure State
  | _, [] => .ok s
  | a, v :: vs =>
    match s.memWrite a v with
    | .error f => .error f
    | .ok t => t.storeBytes (a + 1) vs

/-- `Fetch(pc)`: the bytes at pc and pc + 1, for any pc, even or odd (20_memory R55, R57). -/
def State.fetch (s : State) : Except Failure (Byte × Byte) :=
  if s.pc.toNat + 1 < memSize then .ok (s.byteAt s.pc.toNat, s.byteAt (s.pc.toNat + 1))
  else .error (.fetchOutOfRange s.pc)

/-! ### The call stack (10_state R27; log entries 7 and 12) -/

/-- Push of `v`: `stack[sp] <- v; sp <- sp + 1`, or StackOverflow(pc) when sp = 16. -/
def State.push (s : State) (v : Word) : Except Failure State :=
  if h : s.sp.val < 16 then .ok (s.setStack ⟨s.sp.val + 1, by omega⟩ (s.stack.set s.sp.val v))
  else .error (.stackOverflow s.pc)

/-- Pop: `sp <- sp - 1; v <- stack[sp]`, or StackUnderflow(pc) when sp = 0. The entry keeps its value. -/
def State.pop (s : State) : Except Failure (State × Word) :=
  if h : 0 < s.sp.val then
    .ok (s.setStack ⟨s.sp.val - 1, by omega⟩ s.stack, s.stack[s.sp.val - 1]'(by omega))
  else .error (.stackUnderflow s.pc)

/-! ### Inputs (10_state R42; log entry 1) -/

/-- The snapshot of the current step: the oldest one lined up, or a free one. -/
def State.input (s : State) : Config.StepInput :=
  match s.inputs with
  | i :: _ => i
  | [] => Config.freeInput s.draw

/-- The snapshot of the current step is used up. -/
def State.nextInput (s : State) : State :=
  match s.inputs with
  | _ :: rest => { s with inputs := rest }
  | [] => { s with draw := s.draw + 1 }

/-! ### The timer decrement unit (45_timers_input R197, R198; log entry 13) -/

/-- `sat_dec(t)`: `t - 1` if t > 0, else 0. -/
def satDec (t : Byte) : Byte := if t = 0 then 0 else t - 1

/-- `TimerPhase(in.tick)` (45_timers_input R197): the first step establishes the epoch, a later one
decrements both timers when a tick boundary was crossed. -/
def State.timerTick (s : State) : State :=
  { s with
    epoch := true
    DT := if s.epoch && s.input.tick then satDec s.DT else s.DT
    ST := if s.epoch && s.input.tick then satDec s.ST else s.ST }

/-- The timer phase before the execute phase, when P_TIMER_PHASE = BEFORE (30_encoding R90). -/
def State.timerBefore (s : State) : State :=
  match s.params.timerPhase with
  | .before => s.timerTick
  | .after => s

/-- The timer phase after the execute phase, when P_TIMER_PHASE = AFTER (30_encoding R90). -/
def State.timerAfter (s : State) : State :=
  match s.params.timerPhase with
  | .before => s
  | .after => s.timerTick

/-! ### The commit of a step (30_encoding R91) -/

/-- What the step that began in `s` commits when its execute phase ended in `t`: nothing but the failure
when one was raised, the timer phase included; else everything (30_encoding R90, R91; log entry 4). -/
def State.commit (s t : State) : State :=
  match t.status with
  | .failed f => s.fail f
  | .running => t.timerAfter.nextInput

/-! ### The host's side (10_state R40, R44, R45; 70_reset_and_hazards R255) -/

/-- `reset(image)` at parameters `p`: the state of R240 with the image loaded verbatim at the load offset,
or the load refused (70_reset_and_hazards R240, R242). -/
def State.resetWith (p : Config.Params) (image : List Byte) : Result :=
  let s := State.initial p
  if memSize < s.pc.toNat + image.length then .refused (.imageTooLong image.length)
  else .next (s.setMem (Memory.writeAll p.font s.mem s.pc.toNat image))

/-- The host presents snapshot `i` for the coming step, before those already lined up. -/
def State.present (s : State) (i : Config.StepInput) : State := { s with inputs := i :: s.inputs }

/-- `disp[r][c]` (10_state R44). -/
def State.pixelAt (s : State) (r : Fin 32) (c : Fin 64) : Bool := s.disp[r.val][c.val]

/-- `sound_active = (ST > 0)` (10_state R45, 45_timers_input R200). -/
def State.soundActive (s : State) : Bool := decide (0 < s.ST.toNat)

/-- `s` with an instruction word's two bytes stored at its pc, by the host's load and not by a write of the
block, and with a running block, so that the next step fetches that word (log entry 6). -/
def State.storeWordAtPc (s : State) (w : Word) : State :=
  if s.pc.toNat + 1 < memSize then
    { s with
      mem := Memory.writeAll s.params.font s.mem s.pc.toNat [highByte w, lowByte w]
      status := .running }
  else s

end Sys2Proof.Machine
end

