-- ==== Sys2Proof/Machine/Flags.lean ====
section
/-! DEFINITION. Every value the spec gives the flag register VF (42_alu R127 to R129, R132, R134;
44_display R172). -/

namespace Sys2Proof.Machine

/-- `b2u(c)`: 1 if the condition holds, else 0. -/
def b2u (c : Bool) : Byte := if c then 1 else 0

/-- Carry of ADD Vx, Vy: `a + b > 255` with the operands as unsigned integers (42_alu R127). -/
def carry (a b : Byte) : Bool := decide (255 < a.toNat + b.toNat)

/-- Flag of SUB and SUBN: the minuend strictly exceeds the subtrahend (42_alu R128). -/
def exceeds (minuend subtrahend : Byte) : Bool := decide (subtrahend.toNat < minuend.toNat)

/-- The bit SHR shifts out, `s[0]` (42_alu R132). -/
def lowBit (v : Byte) : Bool := v.getLsbD 0

/-- The bit SHL shifts out, `s[7]` (42_alu R134). -/
def highBit (v : Byte) : Bool := v.getLsbD 7

/-- The flag write: VF is overwritten unconditionally, as the last register write (42_alu R129). -/
def State.setFlag (s : State) (c : Bool) : State := s.setReg VF (b2u c)

/-- The end of a flag-producing ALU instruction: the result to V[x], then the flag to VF, then
`pc <- pc + 2` (42_alu R129). -/
def State.resultAndFlag (s : State) (x : Reg) (result : Byte) (flag : Bool) : State :=
  ((s.setReg x result).setFlag flag).advance 2

end Sys2Proof.Machine
end

