-- ==== Sys2Proof/Machine/Operands.lean ====
section
/-! DEFINITION. The operand forms: immediates, the shift source, the one addressing mode, the register
block and the decimal digits (30_encoding R72; 42_alu section 6; 43_index_memory R152 to R156). -/

namespace Sys2Proof.Machine

/-- `zext_16(nnn)` (30_encoding R72). -/
def zext16 (nnn : Addr12) : Word := nnn.setWidth 16

/-- A byte where it meets a 16-bit value, zero-extended. -/
def byteToWord (b : Byte) : Word := b.setWidth 16

/-- The value SHR and SHL shift: V[x] or V[y] by P_SHIFT_SOURCE (42_alu R132, R134; log entry 13). -/
def State.shiftOperand (s : State) (x y : Reg) : Byte :=
  match s.params.shiftSource with
  | .vx => s.reg x
  | .vy => s.reg y

/-- The effective address of the `k`-th byte of an access, `I + k`, an exact natural number
(43_index_memory R156; 20_memory R52). -/
def State.effAddr (s : State) (k : Nat) : Nat := s.I.toNat + k

/-- The values of V0 to V`x`, inclusive of `x` (43_index_memory R154). -/
def State.regBlock (s : State) (x : Reg) : List Byte :=
  (List.range (x.val + 1)).map fun k => s.reg (Fin.ofNat 16 k)

/-- The hundreds, tens and ones decimal digits of a byte (43_index_memory R153). -/
def bcdDigits (v : Byte) : List Byte :=
  [BitVec.ofNat 8 (v.toNat / 100), BitVec.ofNat 8 (v.toNat / 10 % 10), BitVec.ofNat 8 (v.toNat % 10)]

/-- The address of the glyph of digit `d`, `5 * d` (43_index_memory R152; 20_memory R51). -/
def glyphAddress (d : Byte) : Word := byteToWord d * 5

/-- The optional increment after a register block: `I <- (I + x + 1) mod 2^16` when P_LOADSTORE_INC_I
(43_index_memory R154, R155; log entry 13). -/
def State.bumpI (s : State) (x : Reg) : State :=
  if s.params.loadStoreIncI then s.setI (s.I + BitVec.ofNat 16 (x.val + 1)) else s

/-- The key number a byte names, when it names one (45_timers_input R190; log entry 12). -/
def keyOf (v : Byte) : Option Key := if h : v.toNat < 16 then some ⟨v.toNat, h⟩ else none

end Sys2Proof.Machine
end

