-- ==== Sys2Proof/Machine/Alu.lean ====
section
/-! DEFINITION. Register loads and the instruction ALU (42_alu R120 to R135). -/

namespace Sys2Proof.Machine

/-- The end of an instruction that only loads a register: `V[x] <- b; pc <- pc + 2`. -/
def State.result (s : State) (x : Reg) (b : Byte) : State := (s.setReg x b).advance 2

/-- LD Vx, byte (R120). -/
def execLdByte (x : Reg) (kk : Byte) (s : State) : Result := .next (s.result x kk)

/-- LD Vx, Vy (R121). -/
def execLdReg (x y : Reg) (s : State) : Result := .next (s.result x (s.reg y))

/-- ADD Vx, byte: "8-bit wraparound add, no flag effect" (R122). -/
def execAddByte (x : Reg) (kk : Byte) (s : State) : Result := .next (s.result x (s.reg x + kk))

/-- OR Vx, Vy (R123). -/
def execOrReg (x y : Reg) (s : State) : Result := .next (s.result x (s.reg x ||| s.reg y))

/-- AND Vx, Vy (R124). -/
def execAndReg (x y : Reg) (s : State) : Result := .next (s.result x (s.reg x &&& s.reg y))

/-- XOR Vx, Vy (R125). -/
def execXorReg (x y : Reg) (s : State) : Result := .next (s.result x (s.reg x ^^^ s.reg y))

/-- ADD Vx, Vy: the sum modulo 256, VF the carry (R130). -/
def execAddReg (x y : Reg) (s : State) : Result :=
  .next (s.resultAndFlag x (s.reg x + s.reg y) (carry (s.reg x) (s.reg y)))

/-- SUB Vx, Vy: `V[x] - V[y]` modulo 256, VF whether V[x] exceeds V[y] (R131). -/
def execSub (x y : Reg) (s : State) : Result :=
  .next (s.resultAndFlag x (s.reg x - s.reg y) (exceeds (s.reg x) (s.reg y)))

/-- SUBN Vx, Vy: `V[y] - V[x]` modulo 256, VF whether V[y] exceeds V[x] (R133). -/
def execSubn (x y : Reg) (s : State) : Result :=
  .next (s.resultAndFlag x (s.reg y - s.reg x) (exceeds (s.reg y) (s.reg x)))

/-- SHR Vx, Vy: the shift source right by one, VF the bit shifted out (R132). -/
def execShr (x y : Reg) (s : State) : Result :=
  .next (s.resultAndFlag x (s.shiftOperand x y >>> 1) (lowBit (s.shiftOperand x y)))

/-- SHL Vx, Vy: the shift source left by one, VF the bit shifted out (R134). -/
def execShl (x y : Reg) (s : State) : Result :=
  .next (s.resultAndFlag x (s.shiftOperand x y <<< 1) (highBit (s.shiftOperand x y)))

/-- RND Vx, byte: the step's random byte and the mask (R135). -/
def execRnd (x : Reg) (kk : Byte) (s : State) : Result := .next (s.result x (s.input.rnd &&& kk))

end Sys2Proof.Machine
end

