-- ==== Sys2Proof/Machine/Control.lean ====
section
/-! DEFINITION. Control flow instructions (41_control_flow R100 to R108). -/

namespace Sys2Proof.Machine

/-- `pc <- pc + 4` if the condition holds, else `pc <- pc + 2` (41_control_flow section 4). -/
def State.skipIf (s : State) (c : Bool) : State := s.advance (if c then 4 else 2)

/-- SYS addr, "deliberately a silent no-op that still advances pc by 2" (R100). -/
def execSys (_nnn : Addr12) (s : State) : Result := .next (s.advance 2)

/-- RET: `sp <- sp - 1; pc <- (stack[sp] + 2) mod 2^16`, or StackUnderflow(pc) (R101). -/
def execRet (s : State) : Result :=
  s.orFail (match s.pop with
    | .error f => .error f
    | .ok (t, saved) => .ok (t.setPc (saved + 2)))

/-- JP addr (R102). -/
def execJp (nnn : Addr12) (s : State) : Result := .next (s.setPc (zext16 nnn))

/-- CALL addr: the pushed value is the CALL's own address, or StackOverflow(pc) (R103). -/
def execCall (nnn : Addr12) (s : State) : Result :=
  s.orFail (match s.push s.pc with
    | .error f => .error f
    | .ok t => .ok (t.setPc (zext16 nnn)))

/-- JP V0, addr: `pc <- (zext_16(nnn) + V[0]) mod 2^16`, not reduced to 12 bits (R104). -/
def execJpV0 (nnn : Addr12) (s : State) : Result := .next (s.setPc (zext16 nnn + byteToWord (s.reg 0)))

/-- SE Vx, byte (R105). -/
def execSeByte (x : Reg) (kk : Byte) (s : State) : Result := .next (s.skipIf (s.reg x == kk))

/-- SNE Vx, byte (R106). -/
def execSneByte (x : Reg) (kk : Byte) (s : State) : Result := .next (s.skipIf (s.reg x != kk))

/-- SE Vx, Vy (R107). -/
def execSeReg (x y : Reg) (s : State) : Result := .next (s.skipIf (s.reg x == s.reg y))

/-- SNE Vx, Vy (R108). -/
def execSneReg (x y : Reg) (s : State) : Result := .next (s.skipIf (s.reg x != s.reg y))

end Sys2Proof.Machine
end

