-- ==== Sys2Proof/Machine/Display.lean ====
section
/-! DEFINITION. The display sprite compositor and its instructions (44_display R170 to R176). -/

namespace Sys2Proof.Machine

/-- The pixel grid and the compositor's `erased` flag (44_display R171). -/
abbrev Canvas := Display × Bool

/-- `disp[row][col] <- NOT disp[row][col]`. -/
def invertPixel (d : Display) (row : Fin 32) (col : Fin 64) : Display :=
  d.set row.val (d[row.val].set col.val (!d[row.val][col.val]))

/-- One sprite bit on one pixel: a 0 leaves it, a 1 inverts it, and a pixel that was on is erased
(44_display R171). -/
def plotBit (bit : Bool) (row : Fin 32) (col : Fin 64) (a : Canvas) : Canvas :=
  if bit then (invertPixel a.1 row col, a.2 || a.1[row.val][col.val]) else a

/-- The 8 pixels of one sprite row, bit 7 leftmost, the column wrapping modulo 64 inside the row
(44_display R171, R174, R175; log entry 11). -/
def plotRow (b : Byte) (row : Fin 32) (cx : Nat) (a : Canvas) : Canvas :=
  (List.range 8).foldl (fun acc c => plotBit (b.getLsbD (7 - c)) row (Fin.ofNat 64 (cx + c)) acc) a

/-- The sprite's rows from display row `cy` on, the row wrapping modulo 32 (44_display R171, R174). -/
def plotRows (cx : Nat) : Nat → List Byte → Canvas → Canvas
  | _, [], a => a
  | cy, b :: bs, a => plotRows cx (cy + 1) bs (plotRow b (Fin.ofNat 32 cy) cx a)

/-- `Composite(vx, vy, b[0..n-1])`: the new grid and whether a pixel was erased (44_display R171). -/
def composite (d : Display) (vx vy : Byte) (sprite : List Byte) : Canvas :=
  plotRows (vx.toNat % 64) (vy.toNat % 32) sprite (d, false)

/-- CLS: every pixel off, VF unchanged (R170). -/
def execCls (s : State) : Result :=
  .next ((s.setDisp (Vector.replicate 32 (Vector.replicate 64 false))).advance 2)

/-- DRW Vx, Vy, nibble: `n` bytes at I as a sprite at (V[x], V[y]), VF the collision (R172, R173, R176). -/
def execDrw (x y : Reg) (n : Fin 16) (s : State) : Result :=
  s.orFail (match s.loadBytes (s.effAddr 0) n.val with
    | .error f => .error f
    | .ok sprite =>
      .ok (((s.setDisp (composite s.disp (s.reg x) (s.reg y) sprite).1).setFlag
        (composite s.disp (s.reg x) (s.reg y) sprite).2).advance 2))

end Sys2Proof.Machine
end

