-- ==== Sys2Proof/Machine/IndexMemory.lean ====
section
/-! DEFINITION. Address register and memory instructions (43_index_memory R150 to R155). -/

namespace Sys2Proof.Machine

/-- LD I, addr (R150). -/
def execLdI (nnn : Addr12) (s : State) : Result := .next ((s.setI (zext16 nnn)).advance 2)

/-- ADD I, Vx: "16-bit wraparound add", no flag (R151). -/
def execAddI (x : Reg) (s : State) : Result := .next ((s.setI (s.I + byteToWord (s.reg x))).advance 2)

/-- LD F, Vx: the glyph's address, "only when Vx ≤ 0xF (a value >0xF is a no-op)" (R152). -/
def execLdF (x : Reg) (s : State) : Result :=
  .next ((s.setI (if (s.reg x).toNat ≤ 0xF then glyphAddress (s.reg x) else s.I)).advance 2)

/-- LD B, Vx: the decimal digits of V[x] to I, I + 1, I + 2 (R153). -/
def execLdB (x : Reg) (s : State) : Result :=
  s.orFail (match s.storeBytes (s.effAddr 0) (bcdDigits (s.reg x)) with
    | .error f => .error f
    | .ok t => .ok (t.advance 2))

/-- LD [I], Vx: V0 to Vx to memory at I, inclusive of x (R154). -/
def execStoreRegs (x : Reg) (s : State) : Result :=
  s.orFail (match s.storeBytes (s.effAddr 0) (s.regBlock x) with
    | .error f => .error f
    | .ok t => .ok ((t.bumpI x).advance 2))

/-- LD Vx, [I]: memory at I to V0 to Vx, inclusive of x (R155). -/
def execLoadRegs (x : Reg) (s : State) : Result :=
  s.orFail (match s.loadBytes (s.effAddr 0) (x.val + 1) with
    | .error f => .error f
    | .ok bs => .ok (((s.setRegsFrom 0 bs).bumpI x).advance 2))

end Sys2Proof.Machine
end

