-- ==== Sys2Proof/Machine/TimersInput.lean ====
section
/-! DEFINITION. Key and timer instructions (45_timers_input R190 to R195). -/

namespace Sys2Proof.Machine

/-- Whether key `k` is held, in this step's snapshot (10_state R42). -/
def State.keyHeld (s : State) (k : Key) : Bool := s.input.held[k.val]

/-- SKP Vx: skip if the key V[x] is held, or KeyOutOfRange(V[x]) (R190). -/
def execSkp (x : Reg) (s : State) : Result :=
  s.orFail (match keyOf (s.reg x) with
    | none => .error (.keyOutOfRange (s.reg x))
    | some k => .ok (s.skipIf (s.keyHeld k)))

/-- SKNP Vx: skip if the key V[x] is not held, or KeyOutOfRange(V[x]) (R191). -/
def execSknp (x : Reg) (s : State) : Result :=
  s.orFail (match keyOf (s.reg x) with
    | none => .error (.keyOutOfRange (s.reg x))
    | some k => .ok (s.skipIf (!s.keyHeld k)))

/-- LD Vx, DT (R192). -/
def execLdVxDT (x : Reg) (s : State) : Result := .next ((s.setReg x s.DT).advance 2)

/-- LD Vx, K: the most recently pressed key and `pc <- pc + 2` if one is reported, else V[x] keeps its value
and `pc` holds; the latch is not cleared (R193; log entry 14). -/
def execLdVxK (x : Reg) (s : State) : Result :=
  .next ((s.setReg x (match s.input.lastKey with
      | some k => BitVec.ofNat 8 k.val
      | none => s.reg x)).advance (match s.input.lastKey with
      | some _ => 2
      | none => 0))

/-- LD DT, Vx (R194). -/
def execLdDTVx (x : Reg) (s : State) : Result := .next ((s.setDT (s.reg x)).advance 2)

/-- LD ST, Vx (R195). -/
def execLdSTVx (x : Reg) (s : State) : Result := .next ((s.setST (s.reg x)).advance 2)

end Sys2Proof.Machine
end

