-- ==== Sys2Proof/Machine/Step.lean ====
section
/-! DEFINITION. One step of the block (30_encoding R90, R91; 60_exceptions R219 to R221). -/

namespace Sys2Proof.Machine

/-- `step(in)` with `in` the current snapshot (`State.input`): fetch, decode, the timer phase and the
execute phase in the order of P_TIMER_PHASE, then the commit (30_encoding R90, R91). A failing step answers
the state with `status` Failed (60_exceptions R220; log entry 3); a failed block takes no step (R221). -/
def step (s : State) : Host.Outcome State Fault Refusal :=
  match s.status with
  | .failed f => .fault (.blockFailed f)
  | .running =>
    match s.fetch with
    | .error f => .next (s.fail f)
    | .ok (hi, lo) =>
      match decodeWord (hi ++ lo) with
      | none => .next (s.fail (.decodeFailure hi lo))
      | some i =>
        match exec i s.timerBefore with
        | .next t => .next (s.commit t)
        | .fault r => .fault r
        | .refused r => .refused r

/-- `s` with an opcode-table row's word stored where the next step fetches it (log entry 6). -/
def State.withFetchWord (s : State) (nbits w : Nat) : State := s.storeWordAtPc (tableWord nbits w)

end Sys2Proof.Machine
end

