-- ==== Sys2Proof/Safety.lean ====
section
/-! DEFINITION. The vocabulary of the claims: what an instruction leaves unchanged, where an access is
allowed, which pixels a sprite lights, and the invariant of memory. -/

namespace Sys2Proof.Machine

/-! ### Frames -/

/-- A part of the state that an instruction may write. The program counter is none of them: every
instruction may change it. Nor are `epoch`, `status`, the parameters and the inputs, which no completed
execute phase changes. -/
inductive Part where
  | reg (r : Reg)
  | I
  | stack
  | DT
  | ST
  | disp
  | byte (a : Nat)
  deriving DecidableEq, Repr

/-- `t` differs from `s` at most in the program counter and in the parts `w`. The stack pointer and the stack
entries are one part; memory is compared through the read of each byte, the display through each pixel. -/
structure Frame (w : Part → Prop) (s t : State) : Prop where
  regs : ∀ r : Reg, ¬ w (.reg r) → t.reg r = s.reg r
  index : ¬ w .I → t.I = s.I
  stack : ¬ w .stack → t.sp = s.sp ∧ t.stack = s.stack
  delay : ¬ w .DT → t.DT = s.DT
  sound : ¬ w .ST → t.ST = s.ST
  display : ¬ w .disp → ∀ (r : Fin 32) (c : Fin 64), t.pixelAt r c = s.pixelAt r c
  memory : ∀ a : Nat, ¬ w (.byte a) → t.byteAt a = s.byteAt a
  epoch : t.epoch = s.epoch
  status : t.status = s.status
  params : t.params = s.params
  inputs : t.inputs = s.inputs
  draw : t.draw = s.draw

/-- The parts that instruction `i` may write in state `s`: the writers of 10_state R22 (registers),
R23 (I), R27 (the stack), R28 (DT), R29 (ST), R30 (the display) and 20_memory R58 (memory). -/
def mayWrite (i : Instr) (s : State) (p : Part) : Prop :=
  match i with
  | .cls => p = .disp
  | .ret | .call _ => p = .stack
  | .sys _ | .jp _ | .jpV0 _ | .seByte _ _ | .sneByte _ _ | .seReg _ _ | .sneReg _ _ | .skp _ | .sknp _ => False
  | .ldByte x _ | .addByte x _ | .ldReg x _ | .orReg x _ | .andReg x _ | .xorReg x _ | .rnd x _
  | .ldVxDT x | .ldVxK x => p = .reg x
  | .addReg x _ | .sub x _ | .shr x _ | .subn x _ | .shl x _ => p = .reg x ∨ p = .reg VF
  | .ldI _ | .addI _ | .ldF _ => p = .I
  | .drw _ _ _ => p = .disp ∨ p = .reg VF
  | .ldDTVx _ => p = .DT
  | .ldSTVx _ => p = .ST
  | .ldB _ => ∃ k < 3, p = .byte (s.effAddr k)
  | .storeRegs x => (∃ k ≤ x.val, p = .byte (s.effAddr k)) ∨ (s.params.loadStoreIncI = true ∧ p = .I)
  | .loadRegs x => (∃ r ≤ x, p = .reg r) ∨ (s.params.loadStoreIncI = true ∧ p = .I)

/-- `pc <- pc + n` in exact arithmetic, where the sum fits the 16 bits of pc. What happens where it does not
is 10_state R24's "modulo 2^16", the spec's decision D2 (log entry 7), and no claim that uses this says it. A
step executes only with pc at most 0xFFE (20_memory R55), where the sum fits. -/
def PcPlus (n : Nat) (s t : State) : Prop :=
  s.pc.toNat + n < 2 ^ 16 → t.pc.toNat = s.pc.toNat + n

/-! ### Accesses -/

/-- `n` bytes from `a` on can be read: all lie inside memory (20_memory R52, R53). -/
def readable (a n : Nat) : Prop := n = 0 ∨ a + n ≤ memSize

/-- `n` bytes from `a` on, at least one, can be written: all lie inside memory and, where P_PROTECT_RESERVED,
above the reserved area (20_memory R54). -/
def State.writable (s : State) (a n : Nat) : Prop :=
  a + n ≤ memSize ∧ (s.params.protectReserved = true → reservedEnd < a)

/-- The failure of `n` writes from `a` on, at least one, that are not all allowed: the lowest offset fails
first, and out of range comes before reserved (60_exceptions R214, R215, R219). -/
def State.writeFailure (s : State) (a : Nat) : Failure :=
  if s.params.protectReserved = true ∧ a ≤ reservedEnd then .reservedWrite a
  else .memWriteOutOfRange (max a memSize)

/-- Memory is in its canonical form. -/
def State.memOk (s : State) : Prop := Memory.wf s.params.font s.mem = true

/-! ### Sprites -/

/-- A sprite of `n` rows with its bytes at `a`, drawn at (`vx`, `vy`), has a 1 bit on pixel (`r`, `c`): some
row `k` and column `j` of it land there, wrapping modulo 32 and modulo 64 (44_display R171, R174, R175). -/
def State.spriteLit (s : State) (a n : Nat) (vx vy : Byte) (r : Fin 32) (c : Fin 64) : Prop :=
  ∃ k < n, ∃ j < 8, r.val = (vy.toNat % 32 + k) % 32 ∧ c.val = (vx.toNat % 64 + j) % 64 ∧
    (s.byteAt (a + k)).getLsbD (7 - j) = true

end Sys2Proof.Machine
end

