-- ==== Sys2Proof/Certificates/Slice0/Obligations.lean ====
section
/-! DEFINITION. The statements about the model, from the numbered rules of spec/. A clause about `pc` that
says `PcPlus n` says nothing where the sum does not fit 16 bits: that wrap is the spec's decision D2 (log
entry 7) and stands in `Obligations.SuccessorTable` alone. -/

open Sys2Proof Sys2Proof.Machine

/-! ### Reset (70_reset_and_hazards R240 to R242) -/

/-- R240, R242: reset with an image that fits answers the state of R240 with the image at the load offset;
an image that does not fit is refused. (The refusal is the spec's decision D22, `status` its own: derived.) -/
def Obligations.ResetLoadsTheImage : Prop :=
  ∀ (p : Config.Params) (image : List Byte),
    ((loadAddress p.loadOffset).toNat + image.length ≤ 0x1000 →
      ∃ t, State.resetWith p image = .next t ∧
        (∀ r : Reg, t.reg r = 0) ∧ t.I = 0 ∧ t.DT = 0 ∧ t.ST = 0 ∧
        t.sp = 0 ∧ (∀ k : Fin 16, t.stack[k.val] = 0) ∧
        (∀ (r : Fin 32) (c : Fin 64), t.pixelAt r c = false) ∧
        t.pc = loadAddress p.loadOffset ∧ t.epoch = false ∧ t.status = .running ∧ t.params = p ∧
        (∀ (k : Nat) (h : k < image.length), t.byteAt ((loadAddress p.loadOffset).toNat + k) = image[k]) ∧
        (∀ (a : Nat) (h : a < 80), t.byteAt a = p.font[a]) ∧
        (∀ a : Nat, 80 ≤ a → a < 0x1000 →
          (a < (loadAddress p.loadOffset).toNat ∨ (loadAddress p.loadOffset).toNat + image.length ≤ a) →
          t.byteAt a = 0)) ∧
    (0x1000 < (loadAddress p.loadOffset).toNat + image.length →
      State.resetWith p image = .refused (.imageTooLong image.length))

/-- R240 at the defaults of 00_scope R8 (log entries 2, 6, 10): `State.reset` is reset with the empty image,
at pc 0x200, running, with the default settings and the first and last bytes of the font. -/
def Obligations.ResetIsTheEmptyImageAtTheDefaults : Prop :=
  State.resetWith defaultParams [] = .next State.reset ∧
  State.reset.pc = 0x200 ∧ State.reset.status = .running ∧ State.reset.epoch = false ∧
  State.reset.params.shiftSource = .vx ∧ State.reset.params.loadStoreIncI = false ∧
  State.reset.params.protectReserved = true ∧ State.reset.params.timerPhase = .before ∧
  State.reset.byteAt 0x000 = 0xF0 ∧ State.reset.byteAt 0x001 = 0x90 ∧ State.reset.byteAt 0x04F = 0x80 ∧
  State.reset.byteAt 0x050 = 0 ∧ State.reset.byteAt 0xFFF = 0

/-! ### Encoding (30_encoding R70 to R79) -/

/-- R76, R79: decoding the two bytes of a well-formed instruction gives it back and consumes exactly them.
(The opcode values are the spec's supply, log entry 9: derived.) -/
def Obligations.DecodeOfEncode : Prop :=
  ∀ (i : Instr) (rest : List Byte), i.wellFormed = true → decode (encode i ++ rest) = .ok (i, rest)

/-- R73, R78: whatever decodes is a well-formed instruction whose encoding is the bytes consumed, so every
word has one meaning and no bit of it is dropped. (Log entry 9: derived.) -/
def Obligations.EncodeOfDecode : Prop :=
  ∀ (bytes rest : List Byte) (i : Instr), decode bytes = .ok (i, rest) →
    i.wellFormed = true ∧ encode i ++ rest = bytes

/-- R77: the illegal words are exactly those it lists. (Marked derived by the spec; log entry 9.) -/
def Obligations.IllegalWordsAreExactlyTheListed : Prop :=
  ∀ w : Word, decodeWord w = none ↔
    ((w.toNat / 4096 = 0x5 ∨ w.toNat / 4096 = 0x9) ∧ w.toNat % 16 ≠ 0) ∨
    (w.toNat / 4096 = 0x8 ∧ w.toNat % 16 ∈ [0x8, 0x9, 0xA, 0xB, 0xC, 0xD, 0xF]) ∨
    (w.toNat / 4096 = 0xE ∧ w.toNat % 256 ∉ [0x9E, 0xA1]) ∨
    (w.toNat / 4096 = 0xF ∧ w.toNat % 256 ∉ [0x07, 0x0A, 0x15, 0x18, 0x1E, 0x29, 0x33, 0x55, 0x65])

/-- R73, R74, R77: words written out from the spec's patterns decode to the instructions they stand for, with
the two the source itself spells (`6005`, `7003`) and its undefined word `FFFF`. (Log entry 9: derived.) -/
def Obligations.WrittenOutWordsDecode : Prop :=
  decodeWord 0x6005 = some (.ldByte 0 0x05) ∧ decodeWord 0x7003 = some (.addByte 0 0x03) ∧
  decodeWord 0x00E0 = some .cls ∧ decodeWord 0x00EE = some .ret ∧ decodeWord 0x0000 = some (.sys 0) ∧
  decodeWord 0x2ABC = some (.call 0xABC) ∧ decodeWord 0x8AB7 = some (.subn 0xA 0xB) ∧
  decodeWord 0xD12F = some (.drw 1 2 15) ∧ decodeWord 0xEC9E = some (.skp 0xC) ∧
  decodeWord 0xF365 = some (.loadRegs 3) ∧ decodeWord 0xFFFF = none

/-! ### The step (30_encoding R90, R91; 60_exceptions R210 to R221) -/

/-- R90, R91: a running block whose bytes at pc and pc + 1 decode to `i` runs `exec i`, with the timer phase
before or after it by P_TIMER_PHASE, and uses up the step's inputs; a failing one commits nothing but the
failure. (The place of the phase is D17, the inputs' queue log entry 1, the rollback D8: derived.) -/
def Obligations.StepRunsTheDecodedInstruction : Prop :=
  ∀ (s t : State) (i : Instr), s.status = .running → s.pc.toNat + 1 ≤ 0xFFF →
    decodeWord (s.byteAt s.pc.toNat ++ s.byteAt (s.pc.toNat + 1)) = some i →
    (s.params.timerPhase = .before → exec i s.timerTick = .next t → t.status = .running →
      step s = .next t.nextInput) ∧
    (s.params.timerPhase = .after → exec i s = .next t → t.status = .running →
      step s = .next t.timerTick.nextInput) ∧
    (∀ f, exec i s.timerBefore = .next t → t.status = .failed f →
      step s = .next { s with status := .failed f })

/-- R55, R212: a running block with pc + 1 above 0xFFF fails with FetchOutOfRange(pc). (D4, D8: derived.) -/
def Obligations.FetchBeyondMemoryFails : Prop :=
  ∀ s : State, s.status = .running → 0xFFF < s.pc.toNat + 1 →
    step s = .next { s with status := .failed (.fetchOutOfRange s.pc) }

/-- R211, R220: a word that matches no instruction fails with DecodeFailure, carrying the byte at pc and the
byte at pc + 1, whatever the timers would have done; no word of group 0x0 is such a word (R74).
(What the failure leaves is D8, D9: derived.) -/
def Obligations.UndefinedWordFails : Prop :=
  (∀ s : State, s.status = .running → s.pc.toNat + 1 ≤ 0xFFF →
    decodeWord (s.byteAt s.pc.toNat ++ s.byteAt (s.pc.toNat + 1)) = none →
    step s = .next { s with
      status := .failed (.decodeFailure (s.byteAt s.pc.toNat) (s.byteAt (s.pc.toNat + 1))) }) ∧
  ∀ w : Word, w.toNat / 4096 = 0 → (decodeWord w).isSome = true

/-- R91, R220: whatever fails, the step changes nothing but `status`. (D8: derived.) -/
def Obligations.FailingStepChangesOnlyStatus : Prop :=
  ∀ (s t : State) (f : Failure), s.status = .running → step s = .next t → t.status = .failed f →
    t = { s with status := .failed f }

/-- R221: a failed block takes no step. (D9: derived; log entry 3.) -/
def Obligations.FailedBlockTakesNoStep : Prop :=
  ∀ (s : State) (f : Failure), s.status = .failed f → step s = .fault (.blockFailed f)

/-- R41: a running block answers every step, with Ok or with a failure; no step blocks, none is refused.
(Log entry 3: derived.) -/
def Obligations.RunningBlockAnswersEveryStep : Prop :=
  ∀ s : State, s.status = .running → ∃ t, step s = .next t

/-- R210, R213 to R219: which failure each instruction can raise, only when, and with which info: an access
raises the failure of its first byte that is not allowed, out of range before reserved. (Kinds 2 to 8 are D10,
the conditions D4 and D5, log entry 8, and D7 and D15, log entry 12: derived.) -/
def Obligations.FailureKindsOfInstructions : Prop :=
  ∀ (i : Instr) (s t : State) (f : Failure), s.status = .running → exec i s = .next t →
    t.status = .failed f →
    match i with
    | .call _ => s.sp = 16 ∧ f = .stackOverflow s.pc
    | .ret => s.sp = 0 ∧ f = .stackUnderflow s.pc
    | .skp x | .sknp x => 0xF < (s.reg x).toNat ∧ f = .keyOutOfRange (s.reg x)
    | .drw _ _ n => 0 < n.val ∧ 0x1000 < s.effAddr 0 + n.val ∧
        f = .memReadOutOfRange (max (s.effAddr 0) 0x1000)
    | .loadRegs x => 0x1000 < s.effAddr 0 + (x.val + 1) ∧
        f = .memReadOutOfRange (max (s.effAddr 0) 0x1000)
    | .ldB _ =>
        (s.params.protectReserved = true ∧ s.effAddr 0 ≤ 0x1FF ∧ f = .reservedWrite (s.effAddr 0)) ∨
        (¬ (s.params.protectReserved = true ∧ s.effAddr 0 ≤ 0x1FF) ∧ 0x1000 < s.effAddr 0 + 3 ∧
          f = .memWriteOutOfRange (max (s.effAddr 0) 0x1000))
    | .storeRegs x =>
        (s.params.protectReserved = true ∧ s.effAddr 0 ≤ 0x1FF ∧ f = .reservedWrite (s.effAddr 0)) ∨
        (¬ (s.params.protectReserved = true ∧ s.effAddr 0 ≤ 0x1FF) ∧ 0x1000 < s.effAddr 0 + (x.val + 1) ∧
          f = .memWriteOutOfRange (max (s.effAddr 0) 0x1000))
    | _ => False

/-! ### Timers (45_timers_input R192 to R198) -/

/-- R197, R198: a completed step establishes the epoch and otherwise decrements each timer by one, not below
zero, exactly when a tick was crossed and the epoch was established before, unless its instruction writes
that timer. (P_TIMER_PHASE either way; D17 and marks of R198: derived.) -/
def Obligations.TimersOfACompletedStep : Prop :=
  ∀ (s t : State) (i : Instr), s.status = .running → s.pc.toNat + 1 ≤ 0xFFF →
    decodeWord (s.byteAt s.pc.toNat ++ s.byteAt (s.pc.toNat + 1)) = some i →
    step s = .next t → t.status = .running →
    t.epoch = true ∧
    ((∀ x, i ≠ .ldDTVx x) →
      t.DT.toNat = if s.epoch = true ∧ s.input.tick = true then s.DT.toNat - 1 else s.DT.toNat) ∧
    ((∀ x, i ≠ .ldSTVx x) →
      t.ST.toNat = if s.epoch = true ∧ s.input.tick = true then s.ST.toNat - 1 else s.ST.toNat)

/-- R192, R194, R195 in a whole step: with P_TIMER_PHASE = BEFORE the timer is read after the step's decrement
and a value written is not decremented in the same step; with AFTER it is read before, and the value written
is decremented at once. (P_TIMER_PHASE is D17: derived.) -/
def Obligations.TimerInstructionsMeetTheTimerPhase : Prop :=
  ∀ (s : State) (x : Reg), s.status = .running → s.pc.toNat + 1 ≤ 0xFFF →
    let w := s.byteAt s.pc.toNat ++ s.byteAt (s.pc.toNat + 1)
    let dec := fun b : Byte => if s.epoch = true ∧ s.input.tick = true then b.toNat - 1 else b.toNat
    (decodeWord w = some (.ldVxDT x) → ∃ t, step s = .next t ∧ t.status = .running ∧
      t.DT.toNat = dec s.DT ∧
      (t.reg x).toNat = if s.params.timerPhase = .before then dec s.DT else s.DT.toNat) ∧
    (decodeWord w = some (.ldDTVx x) → ∃ t, step s = .next t ∧ t.status = .running ∧
      t.DT.toNat = if s.params.timerPhase = .before then (s.reg x).toNat else dec (s.reg x)) ∧
    (decodeWord w = some (.ldSTVx x) → ∃ t, step s = .next t ∧ t.status = .running ∧
      t.ST.toNat = if s.params.timerPhase = .before then (s.reg x).toNat else dec (s.reg x))

/-! ### Rules over all instructions -/

/-- 10_state R31: no step changes the configuration parameters. 10_state R42: a completed step uses up its
one snapshot, the one lined up for it, or a free one where none is, which no later step sees again (the queue
and the counter are log entry 1). (Log entries 1, 2: derived.) -/
def Obligations.ParametersFixedAndOneSnapshotUsed : Prop :=
  ∀ s t : State, step s = .next t → t.params = s.params ∧
    (t.status = .running → t.inputs = s.inputs.tail ∧
      (s.inputs = [] → t.draw = s.draw + 1) ∧ (s.inputs ≠ [] → t.draw = s.draw))

/-- 20_memory R50 as plain data: every step keeps memory in its canonical form. (Log entry 5: derived.) -/
def Obligations.StepKeepsMemoryCanonical : Prop :=
  ∀ s t : State, s.memOk → step s = .next t → t.memOk

/-- Memory is in its canonical form at reset, with every image that fits. (Log entry 5: derived.) -/
def Obligations.ResetMemoryIsCanonical : Prop :=
  State.reset.memOk ∧ ∀ (p : Config.Params) (image : List Byte) (t : State),
    State.resetWith p image = .next t → t.memOk

/-- 20_memory R65: with P_PROTECT_RESERVED true no step changes a byte of 0x000 to 0x1FF, the font's among
them. (Marked derived by the spec; P_PROTECT_RESERVED is D5.) -/
def Obligations.ProtectedAreaIsNeverWritten : Prop :=
  ∀ s t : State, s.memOk → s.params.protectReserved = true → step s = .next t →
    ∀ a ≤ 0x1FF, t.byteAt a = s.byteAt a

/-- 10_state R22, R23, R27 to R30, 20_memory R58, 44_display R178: every instruction either fails, leaving
everything but `status`, or changes nothing but pc and the parts those rules let it write. (R22 is marked
derived by the spec; what a failure leaves, R91 and R220, is D8, log entry 4: derived.) -/
def Obligations.InstructionsWriteOnlyTheirParts : Prop :=
  ∀ (i : Instr) (s t : State), s.memOk → exec i s = .next t →
    (∃ f, t = { s with status := .failed f }) ∨ Frame (mayWrite i s) s t

/-- 10_state R24: the successor of every instruction that completes, modulo 2^16. (The width and the modulus
are D2, log entry 7: derived.) -/
def Obligations.SuccessorTable : Prop :=
  ∀ (i : Instr) (s t : State), s.status = .running → exec i s = .next t → t.status = .running →
    match i with
    | .jp nnn | .call nnn => t.pc.toNat = nnn.toNat
    | .jpV0 nnn => t.pc.toNat = (nnn.toNat + (s.reg 0).toNat) % 2 ^ 16
    | .ret => ∃ k : Fin 16, s.sp.val = k.val + 1 ∧ t.pc.toNat = ((s.stack[k.val]).toNat + 2) % 2 ^ 16
    | .seByte x kk => t.pc.toNat = (s.pc.toNat + if s.reg x = kk then 4 else 2) % 2 ^ 16
    | .sneByte x kk => t.pc.toNat = (s.pc.toNat + if s.reg x = kk then 2 else 4) % 2 ^ 16
    | .seReg x y => t.pc.toNat = (s.pc.toNat + if s.reg x = s.reg y then 4 else 2) % 2 ^ 16
    | .sneReg x y => t.pc.toNat = (s.pc.toNat + if s.reg x = s.reg y then 2 else 4) % 2 ^ 16
    | .skp x => ∃ k : Key, (s.reg x).toNat = k.val ∧
        t.pc.toNat = (s.pc.toNat + if s.input.held[k.val] = true then 4 else 2) % 2 ^ 16
    | .sknp x => ∃ k : Key, (s.reg x).toNat = k.val ∧
        t.pc.toNat = (s.pc.toNat + if s.input.held[k.val] = true then 2 else 4) % 2 ^ 16
    | .ldVxK _ => t.pc.toNat = (s.pc.toNat + if s.input.lastKey = none then 0 else 2) % 2 ^ 16
    | _ => t.pc.toNat = (s.pc.toNat + 2) % 2 ^ 16

/-- 10_state R43: an input no rule of the executed instruction reads has no effect: RND reads only the random
byte, SKP and SKNP only the held keys, LD Vx, K only the last key, every other instruction none.
(Marked derived by the spec; the queue is log entry 1.) -/
def Obligations.UnreadInputsHaveNoEffect : Prop :=
  ∀ (i : Instr) (s t : State) (a b : Config.StepInput) (rest : List Config.StepInput),
    ((∃ x kk, i = .rnd x kk) → a.rnd = b.rnd) →
    ((∃ x, i = .skp x ∨ i = .sknp x) → a.held = b.held) →
    ((∃ x, i = .ldVxK x) → a.lastKey = b.lastKey) →
    exec i { s with inputs := a :: rest } = .next t →
    exec i { s with inputs := b :: rest } = .next { t with inputs := b :: rest }

/-- 45_timers_input R199, 10_state R28, R29: LD Vx, DT alone reads DT and no instruction reads ST: with other
timer values every other instruction does the same to everything but the timers, and LD Vx, DT with another ST
the same to everything but ST. -/
def Obligations.TimersAreSeenOnlyByTheirReader : Prop :=
  ∀ (i : Instr) (s t : State) (d e : Byte), exec i s = .next t →
    ((∀ x, i ≠ .ldVxDT x) → ∃ u, exec i { s with DT := d, ST := e } = .next u ∧
      { u with DT := t.DT, ST := t.ST } = t) ∧
    ∃ u, exec i { s with ST := e } = .next u ∧ { u with ST := t.ST } = t

/-- 41_control_flow R109: a CALL to a RET leaves pc at the instruction after the CALL and the depth as it was.
(Marked derived by the spec.) -/
def Obligations.CallThenReturnRoundTrip : Prop :=
  ∀ (s : State) (nnn : Addr12), s.status = .running → s.sp.val < 16 → s.pc.toNat + 1 ≤ 0xFFF →
    nnn.toNat + 1 ≤ 0xFFF →
    decodeWord (s.byteAt s.pc.toNat ++ s.byteAt (s.pc.toNat + 1)) = some (.call nnn) →
    decodeWord (s.byteAt nnn.toNat ++ s.byteAt (nnn.toNat + 1)) = some .ret →
    ∃ t u, step s = .next t ∧ t.pc.toNat = nnn.toNat ∧ t.sp.val = s.sp.val + 1 ∧
      step t = .next u ∧ u.status = .running ∧ u.pc.toNat = s.pc.toNat + 2 ∧ u.sp = s.sp

/-- 20_memory R63: code that LD [I], Vx stores is what the next fetch there reads. (Marked derived by the
spec; D24.) -/
def Obligations.StoredCodeIsFetched : Prop :=
  ∀ (s : State) (x : Reg), s.memOk → s.status = .running → s.pc.toNat + 1 ≤ 0xFFF →
    decodeWord (s.byteAt s.pc.toNat ++ s.byteAt (s.pc.toNat + 1)) = some (.storeRegs x) →
    s.writable (s.effAddr 0) (x.val + 1) →
    ∃ t, step s = .next t ∧ t.status = .running ∧
      ∀ k q : Reg, q.val = k.val + 1 → q ≤ x →
        ({ t with pc := BitVec.ofNat 16 (s.effAddr k.val) } : State).fetch = .ok (s.reg k, s.reg q)

/-- 45_timers_input R193, R230: while no key is reported, LD Vx, K holds: the step completes and changes
nothing but the timers, the epoch and the inputs used up. (D16: derived.) -/
def Obligations.WaitingForAKeyHoldsTheBlock : Prop :=
  ∀ (s : State) (x : Reg), s.status = .running → s.pc.toNat + 1 ≤ 0xFFF →
    decodeWord (s.byteAt s.pc.toNat ++ s.byteAt (s.pc.toNat + 1)) = some (.ldVxK x) →
    s.input.lastKey = none →
    ∃ t, step s = .next t ∧ t.pc = s.pc ∧ t.V = s.V ∧ t.I = s.I ∧ t.sp = s.sp ∧ t.stack = s.stack ∧
      t.disp = s.disp ∧ t.mem = s.mem ∧ t.status = .running ∧ t.params = s.params

/-! ### Control flow -/

/-- R74, R100: `00E0` is CLS, `00EE` is RET, every other word `0nnn` is SYS, which does nothing but advance pc
by 2. (The opcode values of CLS and RET are log entry 9: derived.) -/
def Obligations.SysIsANoOp : Prop :=
  (decodeWord 0x00E0 = some .cls ∧ decodeWord 0x00EE = some .ret ∧
    ∀ nnn : Addr12, nnn ≠ 0x0E0 → nnn ≠ 0x0EE →
      decodeWord (BitVec.ofNat 16 nnn.toNat) = some (.sys nnn)) ∧
  ∀ (nnn : Addr12) (s : State), ∃ t, exec (.sys nnn) s = .next t ∧ PcPlus 2 s t ∧
    Frame (fun _ => False) s t

/-- R102: JP addr sets pc to the 12-bit address and changes nothing else. (The effect; the pattern `1nnn` is
log entry 9: derived.) -/
def Obligations.JumpSetsPc : Prop :=
  ∀ (nnn : Addr12) (s : State), ∃ t, exec (.jp nnn) s = .next t ∧ t.pc.toNat = nnn.toNat ∧
    Frame (fun _ => False) s t

/-- R104: JP V0, addr sets pc to the sum, not reduced to 12 bits. (D2, log entry 7: derived.) -/
def Obligations.JumpWithOffsetSetsPc : Prop :=
  ∀ (nnn : Addr12) (s : State), ∃ t, exec (.jpV0 nnn) s = .next t ∧
    t.pc.toNat = nnn.toNat + (s.reg 0).toNat ∧ Frame (fun _ => False) s t

/-- R103, R216: CALL saves its own address and jumps, or fails with StackOverflow(pc) when 16 addresses are
saved. (D7, D8, log entries 12 and 4: derived.) -/
def Obligations.CallSavesItsOwnAddress : Prop :=
  ∀ (nnn : Addr12) (s : State),
    (s.sp.val < 16 → ∃ t, exec (.call nnn) s = .next t ∧ t.pc.toNat = nnn.toNat ∧
      t.sp.val = s.sp.val + 1 ∧
      (∀ k : Fin 16, t.stack[k.val] = if k.val = s.sp.val then s.pc else s.stack[k.val]) ∧
      Frame (· = .stack) s t) ∧
    (s.sp.val = 16 → exec (.call nnn) s = .next { s with status := .failed (.stackOverflow s.pc) })

/-- R101, R217: RET takes the last saved address plus 2, leaving the entry, or fails with StackUnderflow(pc)
when none is saved. (D7, D8, log entries 12 and 4; the modulus is D2 and the entry that stays D6, log
entry 7: derived.) -/
def Obligations.ReturnResumesAfterTheCall : Prop :=
  ∀ s : State,
    (∀ k : Fin 16, s.sp.val = k.val + 1 → ∃ t, exec .ret s = .next t ∧
      t.pc.toNat = ((s.stack[k.val]).toNat + 2) % 2 ^ 16 ∧ t.sp.val = k.val ∧
      t.stack = s.stack ∧ Frame (· = .stack) s t) ∧
    (s.sp.val = 0 → exec .ret s = .next { s with status := .failed (.stackUnderflow s.pc) })

/-- R105 to R108: each skip advances pc by 4 if its condition holds, else by 2, and changes nothing else. (The
effect; the patterns are log entry 9: derived.) -/
def Obligations.SkipsAdvanceByFourOrTwo : Prop :=
  ∀ (x y : Reg) (kk : Byte) (s : State),
    (∃ t, exec (.seByte x kk) s = .next t ∧ Frame (fun _ => False) s t ∧
      (s.reg x = kk → PcPlus 4 s t) ∧ (s.reg x ≠ kk → PcPlus 2 s t)) ∧
    (∃ t, exec (.sneByte x kk) s = .next t ∧ Frame (fun _ => False) s t ∧
      (s.reg x ≠ kk → PcPlus 4 s t) ∧ (s.reg x = kk → PcPlus 2 s t)) ∧
    (∃ t, exec (.seReg x y) s = .next t ∧ Frame (fun _ => False) s t ∧
      (s.reg x = s.reg y → PcPlus 4 s t) ∧ (s.reg x ≠ s.reg y → PcPlus 2 s t)) ∧
    (∃ t, exec (.sneReg x y) s = .next t ∧ Frame (fun _ => False) s t ∧
      (s.reg x ≠ s.reg y → PcPlus 4 s t) ∧ (s.reg x = s.reg y → PcPlus 2 s t))

/-! ### Loads and the ALU -/

/-- R120: LD Vx, byte, the word `6xkk`, sets V[x] (VF too when x is F), advances pc by 2, and changes nothing
else. -/
def Obligations.LoadImmediateSetsItsRegister : Prop :=
  ∀ (x : Reg) (kk : Byte),
    decodeWord (BitVec.ofNat 16 (0x6000 + x.val * 256 + kk.toNat)) = some (.ldByte x kk) ∧
    ∀ s : State, ∃ t, exec (.ldByte x kk) s = .next t ∧ t.reg x = kk ∧ PcPlus 2 s t ∧ Frame (· = .reg x) s t

/-- R121: LD Vx, Vy copies V[y] into V[x], advances pc by 2, and changes nothing else. (The effect; the pattern
`8xy0` is log entry 9: derived.) -/
def Obligations.CopySetsItsRegister : Prop :=
  ∀ (x y : Reg) (s : State), ∃ t, exec (.ldReg x y) s = .next t ∧ t.reg x = s.reg y ∧ PcPlus 2 s t ∧
    Frame (· = .reg x) s t

/-- R122: ADD Vx, byte, the word `7xkk`, adds modulo 256 and leaves VF unless x is F. -/
def Obligations.AddImmediateLeavesTheFlag : Prop :=
  ∀ (x : Reg) (kk : Byte),
    decodeWord (BitVec.ofNat 16 (0x7000 + x.val * 256 + kk.toNat)) = some (.addByte x kk) ∧
    ∀ s : State, ∃ t, exec (.addByte x kk) s = .next t ∧
      (t.reg x).toNat = ((s.reg x).toNat + kk.toNat) % 256 ∧ PcPlus 2 s t ∧ Frame (· = .reg x) s t

/-- R123, R124, R125: the bitwise operations combine into V[x], bit by bit, and leave VF unless x is F.
(The effect; the patterns are log entry 9: derived.) -/
def Obligations.BitwiseOperationsCombine : Prop :=
  ∀ (x y : Reg) (s : State),
    (∃ t, exec (.orReg x y) s = .next t ∧ PcPlus 2 s t ∧ Frame (· = .reg x) s t ∧
      ∀ k < 8, (t.reg x).getLsbD k = ((s.reg x).getLsbD k || (s.reg y).getLsbD k)) ∧
    (∃ t, exec (.andReg x y) s = .next t ∧ PcPlus 2 s t ∧ Frame (· = .reg x) s t ∧
      ∀ k < 8, (t.reg x).getLsbD k = ((s.reg x).getLsbD k && (s.reg y).getLsbD k)) ∧
    (∃ t, exec (.xorReg x y) s = .next t ∧ PcPlus 2 s t ∧ Frame (· = .reg x) s t ∧
      ∀ k < 8, (t.reg x).getLsbD k = ((s.reg x).getLsbD k ^^ (s.reg y).getLsbD k))

/-- R127: ADD Vx, Vy stores the sum modulo 256 and writes the carry to VF last, so that with x = F the
sum is lost. -/
def Obligations.AddSetsTheCarry : Prop :=
  ∀ (x y : Reg) (s : State), ∃ t, exec (.addReg x y) s = .next t ∧
    (x ≠ VF → (t.reg x).toNat = ((s.reg x).toNat + (s.reg y).toNat) % 256) ∧
    (t.reg VF).toNat = (if (s.reg x).toNat + (s.reg y).toNat > 255 then 1 else 0) ∧
    PcPlus 2 s t ∧ Frame (fun p => p = .reg x ∨ p = .reg VF) s t

/-- R128: SUB and SUBN store the difference modulo 256 and write to VF last whether the minuend
strictly exceeds the subtrahend. -/
def Obligations.SubtractionsSetTheStrictFlag : Prop :=
  ∀ (x y : Reg) (s : State),
    (∃ t, exec (.sub x y) s = .next t ∧
      (x ≠ VF → (t.reg x).toNat = ((s.reg x).toNat + 256 - (s.reg y).toNat) % 256) ∧
      (t.reg VF).toNat = (if (s.reg x).toNat > (s.reg y).toNat then 1 else 0) ∧
      PcPlus 2 s t ∧ Frame (fun p => p = .reg x ∨ p = .reg VF) s t) ∧
    (∃ t, exec (.subn x y) s = .next t ∧
      (x ≠ VF → (t.reg x).toNat = ((s.reg y).toNat + 256 - (s.reg x).toNat) % 256) ∧
      (t.reg VF).toNat = (if (s.reg y).toNat > (s.reg x).toNat then 1 else 0) ∧
      PcPlus 2 s t ∧ Frame (fun p => p = .reg x ∨ p = .reg VF) s t)

/-- R132, R134: the shifts store the shift source halved or doubled modulo 256 and write the bit shifted out
to VF last; the source is V[x] or V[y] by P_SHIFT_SOURCE. (D12: derived.) -/
def Obligations.ShiftsSetTheBitShiftedOut : Prop :=
  ∀ (x y : Reg) (s : State) (src : Byte),
    (s.params.shiftSource = .vx → src = s.reg x) → (s.params.shiftSource = .vy → src = s.reg y) →
    (∃ t, exec (.shr x y) s = .next t ∧ (x ≠ VF → (t.reg x).toNat = src.toNat / 2) ∧
      (t.reg VF).toNat = src.toNat % 2 ∧
      PcPlus 2 s t ∧ Frame (fun p => p = .reg x ∨ p = .reg VF) s t) ∧
    (∃ t, exec (.shl x y) s = .next t ∧ (x ≠ VF → (t.reg x).toNat = src.toNat * 2 % 256) ∧
      (t.reg VF).toNat = src.toNat / 128 ∧
      PcPlus 2 s t ∧ Frame (fun p => p = .reg x ∨ p = .reg VF) s t)

/-- R135: RND stores the step's random byte under the mask, whatever that byte is. (D18: derived.) -/
def Obligations.RandomByteUnderTheMask : Prop :=
  ∀ (x : Reg) (kk : Byte) (s : State), ∃ t, exec (.rnd x kk) s = .next t ∧
    (∀ k < 8, (t.reg x).getLsbD k = (s.input.rnd.getLsbD k && kk.getLsbD k)) ∧
    PcPlus 2 s t ∧ Frame (· = .reg x) s t

/-! ### Address register and memory -/

/-- R150, R151: LD I, addr sets I to the zero-extended address; ADD I, Vx adds modulo 2^16 and leaves VF.
(The effect; the patterns are log entry 9: derived.) -/
def Obligations.IndexLoadsAndAdds : Prop :=
  ∀ (nnn : Addr12) (x : Reg) (s : State),
    (∃ t, exec (.ldI nnn) s = .next t ∧ t.I.toNat = nnn.toNat ∧ PcPlus 2 s t ∧ Frame (· = .I) s t) ∧
    (∃ t, exec (.addI x) s = .next t ∧ t.I.toNat = (s.I.toNat + (s.reg x).toNat) % 2 ^ 16 ∧
      PcPlus 2 s t ∧ Frame (· = .I) s t)

/-- R152: LD F, Vx sets I to the glyph's address for a digit and leaves I for a larger value.
(D14: derived.) -/
def Obligations.FontAddressOfADigit : Prop :=
  ∀ (x : Reg) (s : State), ∃ t, exec (.ldF x) s = .next t ∧
    t.I.toNat = (if (s.reg x).toNat ≤ 0xF then (s.reg x).toNat * 5 else s.I.toNat) ∧
    PcPlus 2 s t ∧ Frame (· = .I) s t

/-- R153: LD B, Vx stores the hundreds, tens and ones at I, I + 1, I + 2, where those bytes may be written,
and changes nothing else. (Where they may be is D4, D5: derived.) -/
def Obligations.DecimalDigitsAreStored : Prop :=
  ∀ (x : Reg) (s : State), s.memOk → s.writable (s.effAddr 0) 3 →
    ∃ t, exec (.ldB x) s = .next t ∧
      (t.byteAt (s.effAddr 0)).toNat = (s.reg x).toNat / 100 ∧
      (t.byteAt (s.effAddr 1)).toNat = (s.reg x).toNat / 10 % 10 ∧
      (t.byteAt (s.effAddr 2)).toNat = (s.reg x).toNat % 10 ∧
      PcPlus 2 s t ∧ Frame (fun p => ∃ k < 3, p = .byte (s.effAddr k)) s t

/-- R154: LD [I], Vx stores V0 to Vx at I to I + x, where those bytes may be written, and changes nothing
else but, where P_LOADSTORE_INC_I, I. (D4, D5, D13: derived.) -/
def Obligations.RegisterBlockIsStored : Prop :=
  ∀ (x : Reg) (s : State), s.memOk → s.writable (s.effAddr 0) (x.val + 1) →
    ∃ t, exec (.storeRegs x) s = .next t ∧
      (∀ r : Reg, r ≤ x → t.byteAt (s.effAddr r.val) = s.reg r) ∧
      t.I.toNat = (if s.params.loadStoreIncI = true then (s.I.toNat + x.val + 1) % 2 ^ 16 else s.I.toNat) ∧
      PcPlus 2 s t ∧ Frame (fun p => (∃ r : Reg, r ≤ x ∧ p = .byte (s.effAddr r.val)) ∨ p = .I) s t

/-- R155: LD Vx, [I] loads V0 to Vx from I to I + x, where those bytes lie inside memory, and changes nothing
else but, where P_LOADSTORE_INC_I, I. (D4, D13: derived.) -/
def Obligations.RegisterBlockIsLoaded : Prop :=
  ∀ (x : Reg) (s : State), readable (s.effAddr 0) (x.val + 1) →
    ∃ t, exec (.loadRegs x) s = .next t ∧
      (∀ r : Reg, r ≤ x → t.reg r = s.byteAt (s.effAddr r.val)) ∧
      t.I.toNat = (if s.params.loadStoreIncI = true then (s.I.toNat + x.val + 1) % 2 ^ 16 else s.I.toNat) ∧
      PcPlus 2 s t ∧ Frame (fun p => (∃ r : Reg, r ≤ x ∧ p = .reg r) ∨ p = .I) s t

/-- R214, R215, R219: LD B, Vx and LD [I], Vx whose bytes may not all be written write none of them and fail
at the first in order: ReservedWrite(I) when I is at or below 0x1FF and protected, else MemWriteOutOfRange
of the first address above 0xFFF. (D4, D5, D8: derived.) -/
def Obligations.ForbiddenWritesFail : Prop :=
  ∀ (i : Instr) (n : Nat) (x : Reg) (s : State),
    (i = .ldB x ∧ n = 3) ∨ (i = .storeRegs x ∧ n = x.val + 1) →
    ((s.params.protectReserved = true ∧ s.effAddr 0 ≤ 0x1FF) →
      exec i s = .next { s with status := .failed (.reservedWrite (s.effAddr 0)) }) ∧
    (¬ (s.params.protectReserved = true ∧ s.effAddr 0 ≤ 0x1FF) → 0x1000 < s.effAddr 0 + n →
      exec i s = .next { s with status := .failed (.memWriteOutOfRange (max (s.effAddr 0) 0x1000)) })

/-- R213, R219: DRW and LD Vx, [I] that would read above 0xFFF load and draw nothing and fail with
MemReadOutOfRange of the first such address. (D4, D8: derived.) -/
def Obligations.ReadsBeyondMemoryFail : Prop :=
  ∀ (i : Instr) (n : Nat) (x y : Reg) (s : State),
    (∃ k : Fin 16, i = .drw x y k ∧ n = k.val ∧ 0 < n) ∨ (i = .loadRegs x ∧ n = x.val + 1) →
    0x1000 < s.effAddr 0 + n →
    exec i s = .next { s with status := .failed (.memReadOutOfRange (max (s.effAddr 0) 0x1000)) }

/-! ### Display -/

/-- R170: CLS turns every pixel off, leaves VF, and advances pc by 2. (The effect; the pattern `00E0` is log
entry 9: derived.) -/
def Obligations.ClearTurnsEveryPixelOff : Prop :=
  ∀ s : State, ∃ t, exec .cls s = .next t ∧
    (∀ (r : Fin 32) (c : Fin 64), t.pixelAt r c = false) ∧ PcPlus 2 s t ∧ Frame (· = .disp) s t

/-- R171, R172, R174, R175: DRW inverts exactly the pixels on which the sprite at I has a 1 bit, drawn at
(V[x] mod 64, V[y] mod 32) with both coordinates wrapping; with n = 0 nothing is read or drawn (R176). What it
writes to VF is `CollisionFlagReportsAnErasedPixel`. (The bit order is D20, n = 0 is D19: derived.) -/
def Obligations.DrawInvertsTheSpritesPixels : Prop :=
  ∀ (x y : Reg) (n : Fin 16) (s : State), readable (s.effAddr 0) n.val →
    ∃ t, exec (.drw x y n) s = .next t ∧
      (∀ (r : Fin 32) (c : Fin 64),
        (s.spriteLit (s.effAddr 0) n.val (s.reg x) (s.reg y) r c → t.pixelAt r c = !s.pixelAt r c) ∧
        (¬ s.spriteLit (s.effAddr 0) n.val (s.reg x) (s.reg y) r c → t.pixelAt r c = s.pixelAt r c)) ∧
      PcPlus 2 s t ∧ Frame (fun p => p = .disp ∨ p = .reg VF) s t

/-- R173: the collision flag of a draw is 1 when at least one pixel that was on before it is off after it, and
0 otherwise, however many pixels it turns on. (That n = 0 completes without a read and clears the flag is D19,
log entry 11: derived.) -/
def Obligations.CollisionFlagReportsAnErasedPixel : Prop :=
  ∀ (x y : Reg) (n : Fin 16) (s : State), readable (s.effAddr 0) n.val →
    ∃ t, exec (.drw x y n) s = .next t ∧
      ((∃ r c, s.pixelAt r c = true ∧ t.pixelAt r c = false) → t.reg VF = 1) ∧
      ((¬ ∃ r c, s.pixelAt r c = true ∧ t.pixelAt r c = false) → t.reg VF = 0)

/-- R178: whatever step changes a pixel executes CLS or DRW, a step that turns one on executes DRW, and what the
host presents to the block leaves the display. -/
def Obligations.DisplayChangesOnlyThroughClsAndDrw : Prop :=
  (∀ s t : State, step s = .next t →
    ((∃ r c, t.pixelAt r c ≠ s.pixelAt r c) → ∃ i,
      decodeWord (s.byteAt s.pc.toNat ++ s.byteAt (s.pc.toNat + 1)) = some i ∧
      (i = .cls ∨ ∃ x y n, i = .drw x y n)) ∧
    ((∃ r c, s.pixelAt r c = false ∧ t.pixelAt r c = true) → ∃ x y n,
      decodeWord (s.byteAt s.pc.toNat ++ s.byteAt (s.pc.toNat + 1)) = some (.drw x y n))) ∧
  ∀ (s : State) (i : Config.StepInput) (r : Fin 32) (c : Fin 64),
    (s.present i).pixelAt r c = s.pixelAt r c

/-- R177: drawing the same sprite twice at the same place (x and y not F) restores the display, and the second
draw's flag is 1 exactly when the first draw turned a pixel on. (Marked derived by the spec; n = 0 is
D19, log entry 11.) -/
def Obligations.DoubleDrawRestoresTheDisplay : Prop :=
  ∀ (x y : Reg) (n : Fin 16) (s : State), x ≠ VF → y ≠ VF → readable (s.effAddr 0) n.val →
    ∃ t u, exec (.drw x y n) s = .next t ∧ exec (.drw x y n) t = .next u ∧
      (∀ (r : Fin 32) (c : Fin 64), u.pixelAt r c = s.pixelAt r c) ∧
      ((∃ r c, s.pixelAt r c = false ∧ t.pixelAt r c = true) → u.reg VF = 1) ∧
      ((¬ ∃ r c, s.pixelAt r c = false ∧ t.pixelAt r c = true) → u.reg VF = 0)

/-! ### Keys and timers -/

/-- R190, R191, R218: SKP skips if the key V[x] is held, SKNP if it is not; both fail with KeyOutOfRange(V[x])
when V[x] is no key number. (D15, D8, log entries 12 and 4: derived.) -/
def Obligations.KeySkips : Prop :=
  ∀ (x : Reg) (s : State),
    (∀ k : Key, (s.reg x).toNat = k.val →
      (∃ t, exec (.skp x) s = .next t ∧ Frame (fun _ => False) s t ∧
        (s.input.held[k.val] = true → PcPlus 4 s t) ∧ (s.input.held[k.val] = false → PcPlus 2 s t)) ∧
      (∃ t, exec (.sknp x) s = .next t ∧ Frame (fun _ => False) s t ∧
        (s.input.held[k.val] = false → PcPlus 4 s t) ∧ (s.input.held[k.val] = true → PcPlus 2 s t))) ∧
    (0xF < (s.reg x).toNat →
      exec (.skp x) s = .next { s with status := .failed (.keyOutOfRange (s.reg x)) } ∧
      exec (.sknp x) s = .next { s with status := .failed (.keyOutOfRange (s.reg x)) })

/-- R193: LD Vx, K stores the most recently pressed key and advances, or, when none is reported, changes
nothing, pc included; the inputs are not cleared. (D16: derived.) -/
def Obligations.WaitForKeyStoresOrHolds : Prop :=
  ∀ (x : Reg) (s : State), ∃ t, exec (.ldVxK x) s = .next t ∧ Frame (· = .reg x) s t ∧
    (∀ k : Key, s.input.lastKey = some k → (t.reg x).toNat = k.val ∧ PcPlus 2 s t) ∧
    (s.input.lastKey = none → t.reg x = s.reg x ∧ t.pc = s.pc)

/-- R192, R194, R195, R200: LD Vx, DT copies DT into V[x]; LD DT, Vx and LD ST, Vx copy V[x] into the timer,
and in every state the sound output is active exactly when ST is above 0. (How the timer phase meets them is
`TimerInstructionsMeetTheTimerPhase`: derived.) -/
def Obligations.TimerInstructionsCopy : Prop :=
  ∀ (x : Reg) (s : State),
    (∃ t, exec (.ldVxDT x) s = .next t ∧ t.reg x = s.DT ∧ PcPlus 2 s t ∧ Frame (· = .reg x) s t) ∧
    (∃ t, exec (.ldDTVx x) s = .next t ∧ t.DT = s.reg x ∧ PcPlus 2 s t ∧ Frame (· = .DT) s t) ∧
    (∃ t, exec (.ldSTVx x) s = .next t ∧ t.ST = s.reg x ∧ PcPlus 2 s t ∧ Frame (· = .ST) s t ∧
      (t.soundActive = true ↔ 0 < (s.reg x).toNat)) ∧
    (s.soundActive = true ↔ 0 < s.ST.toNat)
end

