-- ==== Sys2Proof/Laws/Decode.lean ====
section
/-! SUPPORT. What the fields, the word builders and the bytes of a word are in numbers, and how the fields of a
built word and the word built from fields answer to each other (30_encoding R71, R76). -/

namespace Sys2Proof

/-- A concatenation in numbers. -/
theorem append_toNat {n m : Nat} (a : BitVec n) (b : BitVec m) :
    (a ++ b).toNat = a.toNat * 2 ^ m + b.toNat := by
  rw [BitVec.toNat_append, ← Nat.shiftLeft_add_eq_or_of_lt b.isLt, Nat.shiftLeft_eq]

section
variable (op : BitVec 4) (x y : Reg) (n : BitVec 4) (kk : Byte) (nnn : Addr12)

theorem wordAddr_toNat : (wordAddr op nnn).toNat = op.toNat * 4096 + nnn.toNat := by
  simp only [wordAddr, append_toNat]
  norm_num

theorem wordByte_toNat : (wordByte op x kk).toNat = op.toNat * 4096 + x.val * 256 + kk.toNat := by
  simp only [wordByte, append_toNat]
  show (op.toNat * 2 ^ 4 + x.val) * 2 ^ 8 + kk.toNat = _
  omega

theorem wordRegs_toNat :
    (wordRegs op x y n).toNat = op.toNat * 4096 + x.val * 256 + y.val * 16 + n.toNat := by
  simp only [wordRegs, append_toNat]
  show ((op.toNat * 2 ^ 4 + x.val) * 2 ^ 4 + y.val) * 2 ^ 4 + n.toNat = _
  omega

theorem fieldOp_toNat (w : Word) : (fieldOp w).toNat = w.toNat / 4096 := by
  simp [fieldOp, Nat.shiftRight_eq_div_pow]; omega

theorem fieldX_val (w : Word) : (fieldX w).val = w.toNat / 256 % 16 := by
  simp [fieldX, Nat.shiftRight_eq_div_pow]

theorem fieldY_val (w : Word) : (fieldY w).val = w.toNat / 16 % 16 := by
  simp [fieldY, Nat.shiftRight_eq_div_pow]

theorem fieldN_toNat (w : Word) : (fieldN w).toNat = w.toNat % 16 := by simp [fieldN]

theorem fieldKK_toNat (w : Word) : (fieldKK w).toNat = w.toNat % 256 := by simp [fieldKK]

theorem fieldNNN_toNat (w : Word) : (fieldNNN w).toNat = w.toNat % 4096 := by simp [fieldNNN]

/-! ### The fields of a built word -/

theorem fieldOp_wordAddr : fieldOp (wordAddr op nnn) = op := by
  apply BitVec.eq_of_toNat_eq; rw [fieldOp_toNat, wordAddr_toNat]; omega

theorem fieldNNN_wordAddr : fieldNNN (wordAddr op nnn) = nnn := by
  apply BitVec.eq_of_toNat_eq; rw [fieldNNN_toNat, wordAddr_toNat]; omega

theorem fieldOp_wordByte : fieldOp (wordByte op x kk) = op := by
  apply BitVec.eq_of_toNat_eq; rw [fieldOp_toNat, wordByte_toNat]; omega

theorem fieldX_wordByte : fieldX (wordByte op x kk) = x := by
  apply Fin.ext; rw [fieldX_val, wordByte_toNat]; omega

theorem fieldKK_wordByte : fieldKK (wordByte op x kk) = kk := by
  apply BitVec.eq_of_toNat_eq; rw [fieldKK_toNat, wordByte_toNat]; omega

theorem fieldOp_wordRegs : fieldOp (wordRegs op x y n) = op := by
  apply BitVec.eq_of_toNat_eq; rw [fieldOp_toNat, wordRegs_toNat]; omega

theorem fieldX_wordRegs : fieldX (wordRegs op x y n) = x := by
  apply Fin.ext; rw [fieldX_val, wordRegs_toNat]; omega

theorem fieldY_wordRegs : fieldY (wordRegs op x y n) = y := by
  apply Fin.ext; rw [fieldY_val, wordRegs_toNat]; omega

theorem fieldN_wordRegs : fieldN (wordRegs op x y n) = n := by
  apply BitVec.eq_of_toNat_eq; rw [fieldN_toNat, wordRegs_toNat]; omega

end

/-! ### The word built from fields -/

theorem wordAddr_fields (w : Word) (op : BitVec 4) (h : fieldOp w = op) : wordAddr op (fieldNNN w) = w := by
  apply BitVec.eq_of_toNat_eq
  rw [wordAddr_toNat, ← h, fieldOp_toNat, fieldNNN_toNat]; omega

theorem wordByte_fields (w : Word) (op : BitVec 4) (kk : Byte) (h : fieldOp w = op) (hk : fieldKK w = kk) :
    wordByte op (fieldX w) kk = w := by
  apply BitVec.eq_of_toNat_eq
  rw [wordByte_toNat, ← h, ← hk, fieldOp_toNat, fieldX_val, fieldKK_toNat]; omega

theorem wordRegs_fields (w : Word) (op n : BitVec 4) (h : fieldOp w = op) (hn : fieldN w = n) :
    wordRegs op (fieldX w) (fieldY w) n = w := by
  apply BitVec.eq_of_toNat_eq
  rw [wordRegs_toNat, ← h, ← hn, fieldOp_toNat, fieldX_val, fieldY_val, fieldN_toNat]; omega

/-! ### The two bytes of a word -/

theorem highByte_append (hi lo : Byte) : highByte (hi ++ lo) = hi := by
  apply BitVec.eq_of_toNat_eq
  simp only [highByte, BitVec.extractLsb'_toNat, append_toNat, Nat.shiftRight_eq_div_pow]; omega

theorem lowByte_append (hi lo : Byte) : lowByte (hi ++ lo) = lo := by
  apply BitVec.eq_of_toNat_eq
  simp only [lowByte, BitVec.extractLsb'_toNat, append_toNat, Nat.shiftRight_eq_div_pow]; omega

theorem highByte_append_lowByte (w : Word) : highByte w ++ lowByte w = w := by
  apply BitVec.eq_of_toNat_eq
  simp only [append_toNat, highByte, lowByte, BitVec.extractLsb'_toNat, Nat.shiftRight_eq_div_pow]; omega

/-- The sixteen values of a nibble. -/
theorem nibble_cases (o : BitVec 4) : o = 0#4 ∨ o = 1#4 ∨ o = 2#4 ∨ o = 3#4 ∨ o = 4#4 ∨ o = 5#4 ∨ o = 6#4 ∨
    o = 7#4 ∨ o = 8#4 ∨ o = 9#4 ∨ o = 10#4 ∨ o = 11#4 ∨ o = 12#4 ∨ o = 13#4 ∨ o = 14#4 ∨ o = 15#4 := by
  revert o; decide

end Sys2Proof
end

