-- ==== Sys2Proof/Laws/Display.lean ====
section
/-! SUPPORT. The compositor pixel by pixel: which pixels a sprite inverts, and when a pixel is erased. -/

namespace Sys2Proof.Machine

/-- The pixel at row `r`, column `c` of a grid. -/
def pix (d : Display) (r : Fin 32) (c : Fin 64) : Bool := d[r.val][c.val]

/-- `new` is `old` inverted where `lit`, and `old` elsewhere. -/
def Flips (lit : Prop) (old new : Bool) : Prop := (lit → new = !old) ∧ (¬ lit → new = old)

theorem Flips.of_iff {p q : Prop} {old new : Bool} (h : p ↔ q) (f : Flips p old new) : Flips q old new :=
  ⟨fun hq => f.1 (h.mpr hq), fun hq => f.2 fun hp => hq (h.mp hp)⟩

/-- Two flips that never meet are one flip. -/
theorem Flips.trans {p q : Prop} {a b c : Bool} (f : Flips p a b) (g : Flips q b c) (hd : ¬ (p ∧ q)) :
    Flips (p ∨ q) a c := by
  by_cases hp : p
  · have hq : ¬ q := fun hq => hd ⟨hp, hq⟩
    exact ⟨fun _ => by rw [g.2 hq, f.1 hp], fun h => absurd (.inl hp) h⟩
  · by_cases hq : q
    · exact ⟨fun _ => by rw [g.1 hq, f.2 hp], fun h => absurd (.inr hq) h⟩
    · exact ⟨fun h => absurd h (by tauto), fun _ => by rw [g.2 hq, f.2 hp]⟩

theorem pix_invertPixel (d : Display) (row r : Fin 32) (col c : Fin 64) :
    pix (invertPixel d row col) r c = if r = row ∧ c = col then !pix d r c else pix d r c := by
  unfold pix invertPixel
  by_cases hr : r = row
  · subst hr
    by_cases hc : c = col
    · subst hc; simp
    · have : col.val ≠ c.val := fun e => hc (Fin.ext e.symm)
      simp [hc, this]
  · have : row.val ≠ r.val := fun e => hr (Fin.ext e.symm)
    simp [hr, this]

/-- One sprite bit: it inverts its own pixel when it is 1, and erases it when that was on. -/
theorem plotBit_spec (bit : Bool) (row : Fin 32) (col : Fin 64) (a : Canvas) :
    (∀ r c, Flips (bit = true ∧ r = row ∧ c = col) (pix a.1 r c) (pix (plotBit bit row col a).1 r c)) ∧
    ((plotBit bit row col a).2 = true ↔ a.2 = true ∨ (bit = true ∧ pix a.1 row col = true)) := by
  cases bit with
  | false => exact ⟨fun r c => ⟨fun h => absurd h.1 (by simp), fun _ => rfl⟩, by simp [plotBit]⟩
  | true =>
    refine ⟨fun r c => ?_, by simp [plotBit, pix]⟩
    simp only [plotBit, if_true, pix_invertPixel]
    exact ⟨fun h => if_pos h.2, fun h => if_neg fun h2 => h ⟨trivial, h2⟩⟩

/-- The first `m` bits of a sprite row. -/
theorem plotBits_spec (b : Byte) (row : Fin 32) (cx : Nat) (a : Canvas) : ∀ m ≤ 8,
    let out := (List.range m).foldl
      (fun acc c => plotBit (b.getLsbD (7 - c)) row (Fin.ofNat 64 (cx + c)) acc) a
    (∀ r c, Flips (∃ j < m, r = row ∧ c = Fin.ofNat 64 (cx + j) ∧ b.getLsbD (7 - j) = true)
      (pix a.1 r c) (pix out.1 r c)) ∧
    (out.2 = true ↔ a.2 = true ∨
      ∃ j < m, b.getLsbD (7 - j) = true ∧ pix a.1 row (Fin.ofNat 64 (cx + j)) = true) := by
  intro m
  induction m with
  | zero => intro _; exact ⟨fun r c => ⟨fun h => absurd h (by simp), fun _ => rfl⟩, by simp⟩
  | succ m ih =>
    intro hm
    obtain ⟨ih1, ih2⟩ := ih (by omega)
    simp only [List.range_succ, List.foldl_append, List.foldl_cons, List.foldl_nil]
    obtain ⟨h1, h2⟩ := plotBit_spec (b.getLsbD (7 - m)) row (Fin.ofNat 64 (cx + m))
      ((List.range m).foldl (fun acc c => plotBit (b.getLsbD (7 - c)) row (Fin.ofNat 64 (cx + c)) acc) a)
    have distinct : ∀ j < m, Fin.ofNat 64 (cx + j) ≠ Fin.ofNat 64 (cx + m) := fun j hj e => by
      have := congrArg Fin.val e
      simp only [Fin.val_ofNat] at this
      omega
    refine ⟨fun r c => ((ih1 r c).trans (h1 r c) ?_).of_iff ?_, ?_⟩
    · rintro ⟨⟨j, hj, _, hc, _⟩, _, _, hc'⟩
      exact distinct j hj (hc.symm.trans hc')
    · constructor
      · rintro (⟨j, hj, h⟩ | ⟨hb, hr, hc⟩)
        · exact ⟨j, by omega, h⟩
        · exact ⟨m, by omega, hr, hc, hb⟩
      · rintro ⟨j, hj, hr, hc, hb⟩
        by_cases e : j = m
        · subst e; exact .inr ⟨hb, hr, hc⟩
        · exact .inl ⟨j, by omega, hr, hc, hb⟩
    · have same := (ih1 row (Fin.ofNat 64 (cx + m))).2 (by
        rintro ⟨j, hj, _, hc, _⟩; exact distinct j hj hc.symm)
      rw [h2, ih2, same]
      constructor
      · rintro ((h | ⟨j, hj, h⟩) | h)
        · exact .inl h
        · exact .inr ⟨j, by omega, h⟩
        · exact .inr ⟨m, by omega, h⟩
      · rintro (h | ⟨j, hj, h⟩)
        · exact .inl (.inl h)
        · by_cases e : j = m
          · subst e; exact .inr h
          · exact .inl (.inr ⟨j, by omega, h⟩)

/-- One sprite row. -/
theorem plotRow_spec (b : Byte) (row : Fin 32) (cx : Nat) (a : Canvas) :
    (∀ r c, Flips (∃ j < 8, r = row ∧ c = Fin.ofNat 64 (cx + j) ∧ b.getLsbD (7 - j) = true)
      (pix a.1 r c) (pix (plotRow b row cx a).1 r c)) ∧
    ((plotRow b row cx a).2 = true ↔ a.2 = true ∨
      ∃ j < 8, b.getLsbD (7 - j) = true ∧ pix a.1 row (Fin.ofNat 64 (cx + j)) = true) :=
  plotBits_spec b row cx a 8 (Nat.le_refl 8)

/-- The rows of a sprite of at most 32 rows: no two of them meet. -/
theorem plotRows_spec (cx : Nat) (bs : List Byte) : ∀ (cy : Nat) (a : Canvas), bs.length ≤ 32 →
    (∀ r c, Flips (∃ k, ∃ h : k < bs.length, ∃ j < 8, r = Fin.ofNat 32 (cy + k) ∧
        c = Fin.ofNat 64 (cx + j) ∧ bs[k].getLsbD (7 - j) = true)
      (pix a.1 r c) (pix (plotRows cx cy bs a).1 r c)) ∧
    ((plotRows cx cy bs a).2 = true ↔ a.2 = true ∨
      ∃ k, ∃ h : k < bs.length, ∃ j < 8, bs[k].getLsbD (7 - j) = true ∧
        pix a.1 (Fin.ofNat 32 (cy + k)) (Fin.ofNat 64 (cx + j)) = true) := by
  induction bs with
  | nil => intro cy a _; exact ⟨fun r c => ⟨fun h => absurd h (by simp), fun _ => rfl⟩, by simp [plotRows]⟩
  | cons b bs ih =>
    intro cy a hlen
    simp only [List.length_cons] at hlen
    obtain ⟨h1, h2⟩ := plotRow_spec b (Fin.ofNat 32 cy) cx a
    obtain ⟨ih1, ih2⟩ := ih (cy + 1) (plotRow b (Fin.ofNat 32 cy) cx a) (by omega)
    rw [plotRows]
    have distinct : ∀ k < bs.length, Fin.ofNat 32 (cy + 1 + k) ≠ Fin.ofNat 32 cy := fun k hk e => by
      have := congrArg Fin.val e
      simp only [Fin.val_ofNat] at this
      omega
    refine ⟨fun r c => ((h1 r c).trans (ih1 r c) ?_).of_iff ?_, ?_⟩
    · rintro ⟨⟨_, _, hr, _⟩, k, hk, _, _, hr', _⟩
      exact distinct k hk (hr'.symm.trans hr)
    · constructor
      · rintro (⟨j, hj, hr, hc, hb⟩ | ⟨k, hk, j, hj, hr, hc, hb⟩)
        · exact ⟨0, by simp, j, hj, hr, hc, hb⟩
        · refine ⟨k + 1, by simp; omega, j, hj, ?_, hc, by simpa using hb⟩
          rw [hr]; congr 1; omega
      · rintro ⟨k, hk, j, hj, hr, hc, hb⟩
        cases k with
        | zero => exact .inl ⟨j, hj, hr, hc, hb⟩
        | succ k =>
          refine .inr ⟨k, by simp at hk; omega, j, hj, ?_, hc, by simpa using hb⟩
          rw [hr]; congr 1; omega
    · have same : ∀ k < bs.length, ∀ c, pix (plotRow b (Fin.ofNat 32 cy) cx a).1 (Fin.ofNat 32 (cy + 1 + k)) c =
          pix a.1 (Fin.ofNat 32 (cy + 1 + k)) c := fun k hk c => (h1 _ c).2 (by
        rintro ⟨_, _, hr, _⟩; exact distinct k hk hr)
      rw [ih2, h2]
      constructor
      · rintro ((h | ⟨j, hj, hb, hp⟩) | ⟨k, hk, j, hj, hb, hp⟩)
        · exact .inl h
        · exact .inr ⟨0, by simp, j, hj, hb, hp⟩
        · refine .inr ⟨k + 1, by simp; omega, j, hj, by simpa using hb, ?_⟩
          rw [same k hk] at hp
          rw [show cy + (k + 1) = cy + 1 + k by omega]; exact hp
      · rintro (h | ⟨k, hk, j, hj, hb, hp⟩)
        · exact .inl (.inl h)
        · cases k with
          | zero => exact .inl (.inr ⟨j, hj, hb, hp⟩)
          | succ k =>
            have hk' : k < bs.length := by simp at hk; omega
            refine .inr ⟨k, hk', j, hj, by simpa using hb, ?_⟩
            rw [same k hk', show cy + 1 + k = cy + (k + 1) by omega]; exact hp

end Sys2Proof.Machine
end

