-- ==== Sys2Proof/Laws/Memory.lean ====
section
/-! SUPPORT. Memory: a read after a write, and every operation keeps the canonical form. -/

namespace Sys2Proof.Machine

variable (font : Vector Byte 80)

theorem Memory.read_list (a : Nat) (v : Byte) (m : Memory) (q : Nat) (hm : q = a → Memory.read font m q =
    Memory.background font q) :
    Memory.read font (Memory.list font a v m) q = if q = a then v else Memory.read font m q := by
  unfold Memory.list
  by_cases hv : v = Memory.background font a
  · rw [if_pos hv]
    by_cases hq : q = a
    · rw [if_pos hq, hm hq, hv, hq]
    · rw [if_neg hq]
  · rw [if_neg hv, Memory.read]

/-- The canonical form of a non-empty list, taken apart. -/
theorem Memory.wf_cons (a : Nat) (v : Byte) (m : Memory) :
    Memory.wf font ((a, v) :: m) = true ↔
      a < memSize ∧ v ≠ Memory.background font a ∧ (∀ c ∈ m, a < c.1) ∧ Memory.wf font m = true := by
  simp [Memory.wf, and_assoc]

/-- An address no entry lists reads as the background. -/
theorem Memory.read_unlisted (m : Memory) (q : Nat) (h : ∀ c ∈ m, q ≠ c.1) :
    Memory.read font m q = Memory.background font q := by
  induction m with
  | nil => rfl
  | cons c m ih =>
    obtain ⟨b, w⟩ := c
    have hb : q ≠ b := h (b, w) (by simp)
    rw [Memory.read, if_neg hb]
    exact ih fun c hc => h c (by simp [hc])

/-- A read after a write, in a canonical memory: the written byte at its address, every other byte as before. -/
theorem Memory.read_write (m : Memory) (a : Nat) (v : Byte) (q : Nat) (hwf : Memory.wf font m = true) :
    Memory.read font (Memory.write font m a v) q = if q = a then v else Memory.read font m q := by
  induction m with
  | nil => exact Memory.read_list font a v [] q fun _ => rfl
  | cons c m ih =>
    obtain ⟨b, w⟩ := c
    obtain ⟨_, _, hlt, hm⟩ := (Memory.wf_cons font b w m).mp hwf
    rw [Memory.write]
    split
    · next hab =>
      refine Memory.read_list font a v _ q fun hq => Memory.read_unlisted font _ q fun c hc => ?_
      rcases List.mem_cons.mp hc with rfl | hc
      · show q ≠ b; omega
      · have := hlt c hc; omega
    · split
      · next hab =>
        subst hab
        rw [Memory.read_list font a v m q fun hq => Memory.read_unlisted font m q fun c hc => by
          have := hlt c hc; omega]
        by_cases hq : q = a
        · simp [hq]
        · simp [hq, Memory.read]
      · next hab =>
        rw [Memory.read, ih hm, Memory.read]
        by_cases hqb : q = b
        · simp only [if_pos hqb]
          rw [if_neg (by omega)]
        · simp [if_neg hqb]

theorem Memory.mem_list (a : Nat) (v : Byte) (m : Memory) (c : Host.Cell) (h : c ∈ Memory.list font a v m) :
    c.1 = a ∨ c ∈ m := by
  unfold Memory.list at h
  split at h
  · exact .inr h
  · rcases List.mem_cons.mp h with rfl | h
    · exact .inl rfl
    · exact .inr h

/-- Where the entries of a written memory lie. -/
theorem Memory.mem_write (m : Memory) (a : Nat) (v : Byte) (c : Host.Cell)
    (h : c ∈ Memory.write font m a v) : c.1 = a ∨ c ∈ m := by
  induction m with
  | nil => exact Memory.mem_list font a v [] c h
  | cons d m ih =>
    obtain ⟨b, w⟩ := d
    rw [Memory.write] at h
    split at h
    · exact Memory.mem_list font a v _ c h
    · split at h
      · rcases Memory.mem_list font a v m c h with h | h
        · exact .inl h
        · exact .inr (by simp [h])
      · rcases List.mem_cons.mp h with rfl | h
        · exact .inr (by simp)
        · rcases ih h with h | h
          · exact .inl h
          · exact .inr (by simp [h])

theorem Memory.wf_list (a : Nat) (v : Byte) (m : Memory) (ha : a < memSize) (hlt : ∀ c ∈ m, a < c.1)
    (hm : Memory.wf font m = true) : Memory.wf font (Memory.list font a v m) = true := by
  unfold Memory.list
  split
  · exact hm
  · next hv => exact (Memory.wf_cons font a v m).mpr ⟨ha, hv, hlt, hm⟩

/-- A write inside memory keeps the canonical form. -/
theorem Memory.wf_write (m : Memory) (a : Nat) (v : Byte) (ha : a < memSize)
    (hwf : Memory.wf font m = true) : Memory.wf font (Memory.write font m a v) = true := by
  induction m with
  | nil => exact Memory.wf_list font a v [] ha (by simp) rfl
  | cons c m ih =>
    obtain ⟨b, w⟩ := c
    obtain ⟨hb, hw, hlt, hm⟩ := (Memory.wf_cons font b w m).mp hwf
    rw [Memory.write]
    split
    · next hab =>
      refine Memory.wf_list font a v _ ha (fun c hc => ?_) hwf
      rcases List.mem_cons.mp hc with rfl | hc
      · exact hab
      · exact Nat.lt_trans hab (hlt c hc)
    · split
      · next hab => exact Memory.wf_list font a v m ha (hab ▸ hlt) hm
      · next hlt' hne =>
        refine (Memory.wf_cons font b w _).mpr ⟨hb, hw, fun c hc => ?_, ih hm⟩
        rcases Memory.mem_write font m a v c hc with h | h
        · omega
        · exact hlt c h

/-- Writes in sequence keep the canonical form. -/
theorem Memory.wf_writeAll (vs : List Byte) : ∀ (m : Memory) (a : Nat), a + vs.length ≤ memSize →
    Memory.wf font m = true → Memory.wf font (Memory.writeAll font m a vs) = true := by
  induction vs with
  | nil => exact fun _ _ _ h => h
  | cons v vs ih =>
    intro m a ha h
    simp only [List.length_cons] at ha
    exact ih _ _ (by omega) (Memory.wf_write font m a v (by omega) h)

/-- A read after writes in sequence: the written bytes in their range, every other byte as before. -/
theorem Memory.read_writeAll (vs : List Byte) : ∀ (m : Memory) (a q : Nat), a + vs.length ≤ memSize →
    Memory.wf font m = true →
    Memory.read font (Memory.writeAll font m a vs) q =
      if h : a ≤ q ∧ q - a < vs.length then vs[q - a]'h.2 else Memory.read font m q := by
  induction vs with
  | nil => intro m a q _ _; simp [Memory.writeAll]
  | cons v vs ih =>
    intro m a q ha h
    simp only [List.length_cons] at ha
    rw [Memory.writeAll, ih _ _ q (by omega) (Memory.wf_write font m a v (by omega) h),
      Memory.read_write font m a v q h]
    by_cases hq : q = a
    · subst hq
      simp
    · by_cases hr : a + 1 ≤ q ∧ q - (a + 1) < vs.length
      · have h1 : a ≤ q ∧ q - a < (v :: vs).length := by simp; omega
        have e : q - a = (q - (a + 1)) + 1 := by omega
        simp only [dif_pos hr, dif_pos h1]
        simp [e]
      · have h1 : ¬ (a ≤ q ∧ q - a < (v :: vs).length) := by simp; omega
        rw [dif_neg hr, dif_neg h1, if_neg hq]

end Sys2Proof.Machine
end

