-- ==== Sys2Proof/Laws/State.lean ====
section
/-! SUPPORT. What each update of the state leaves in each field and in each read, once and for all, so that
no later proof unfolds a record update. -/

namespace Sys2Proof.Machine

variable (s : State)

/-! ### `setReg` -/

@[simp] theorem State.setReg_V (r : Reg) (b : Byte) : (s.setReg r b).V = s.V.set r.val b := rfl
@[simp] theorem State.setReg_I (r : Reg) (b : Byte) : (s.setReg r b).I = s.I := rfl
@[simp] theorem State.setReg_pc (r : Reg) (b : Byte) : (s.setReg r b).pc = s.pc := rfl
@[simp] theorem State.setReg_sp (r : Reg) (b : Byte) : (s.setReg r b).sp = s.sp := rfl
@[simp] theorem State.setReg_stack (r : Reg) (b : Byte) : (s.setReg r b).stack = s.stack := rfl
@[simp] theorem State.setReg_DT (r : Reg) (b : Byte) : (s.setReg r b).DT = s.DT := rfl
@[simp] theorem State.setReg_ST (r : Reg) (b : Byte) : (s.setReg r b).ST = s.ST := rfl
@[simp] theorem State.setReg_disp (r : Reg) (b : Byte) : (s.setReg r b).disp = s.disp := rfl
@[simp] theorem State.setReg_mem (r : Reg) (b : Byte) : (s.setReg r b).mem = s.mem := rfl
@[simp] theorem State.setReg_epoch (r : Reg) (b : Byte) : (s.setReg r b).epoch = s.epoch := rfl
@[simp] theorem State.setReg_status (r : Reg) (b : Byte) : (s.setReg r b).status = s.status := rfl
@[simp] theorem State.setReg_params (r : Reg) (b : Byte) : (s.setReg r b).params = s.params := rfl
@[simp] theorem State.setReg_inputs (r : Reg) (b : Byte) : (s.setReg r b).inputs = s.inputs := rfl
@[simp] theorem State.setReg_draw (r : Reg) (b : Byte) : (s.setReg r b).draw = s.draw := rfl
@[simp] theorem State.setReg_byteAt (r : Reg) (b : Byte) (q : Nat) : (s.setReg r b).byteAt q = s.byteAt q := rfl
@[simp] theorem State.setReg_pixelAt (r : Reg) (b : Byte) (q : Fin 32) (e : Fin 64) : (s.setReg r b).pixelAt q e = s.pixelAt q e := rfl
@[simp] theorem State.setReg_input (r : Reg) (b : Byte) : (s.setReg r b).input = s.input := rfl

/-! ### `setFlag` -/

@[simp] theorem State.setFlag_V (c : Bool) : (s.setFlag c).V = s.V.set VF.val (b2u c) := rfl
@[simp] theorem State.setFlag_I (c : Bool) : (s.setFlag c).I = s.I := rfl
@[simp] theorem State.setFlag_pc (c : Bool) : (s.setFlag c).pc = s.pc := rfl
@[simp] theorem State.setFlag_sp (c : Bool) : (s.setFlag c).sp = s.sp := rfl
@[simp] theorem State.setFlag_stack (c : Bool) : (s.setFlag c).stack = s.stack := rfl
@[simp] theorem State.setFlag_DT (c : Bool) : (s.setFlag c).DT = s.DT := rfl
@[simp] theorem State.setFlag_ST (c : Bool) : (s.setFlag c).ST = s.ST := rfl
@[simp] theorem State.setFlag_disp (c : Bool) : (s.setFlag c).disp = s.disp := rfl
@[simp] theorem State.setFlag_mem (c : Bool) : (s.setFlag c).mem = s.mem := rfl
@[simp] theorem State.setFlag_epoch (c : Bool) : (s.setFlag c).epoch = s.epoch := rfl
@[simp] theorem State.setFlag_status (c : Bool) : (s.setFlag c).status = s.status := rfl
@[simp] theorem State.setFlag_params (c : Bool) : (s.setFlag c).params = s.params := rfl
@[simp] theorem State.setFlag_inputs (c : Bool) : (s.setFlag c).inputs = s.inputs := rfl
@[simp] theorem State.setFlag_draw (c : Bool) : (s.setFlag c).draw = s.draw := rfl
@[simp] theorem State.setFlag_byteAt (c : Bool) (q : Nat) : (s.setFlag c).byteAt q = s.byteAt q := rfl
@[simp] theorem State.setFlag_pixelAt (c : Bool) (q : Fin 32) (e : Fin 64) : (s.setFlag c).pixelAt q e = s.pixelAt q e := rfl
@[simp] theorem State.setFlag_input (c : Bool) : (s.setFlag c).input = s.input := rfl

/-! ### `setI` -/

@[simp] theorem State.setI_V (a : Word) : (s.setI a).V = s.V := rfl
@[simp] theorem State.setI_I (a : Word) : (s.setI a).I = a := rfl
@[simp] theorem State.setI_pc (a : Word) : (s.setI a).pc = s.pc := rfl
@[simp] theorem State.setI_sp (a : Word) : (s.setI a).sp = s.sp := rfl
@[simp] theorem State.setI_stack (a : Word) : (s.setI a).stack = s.stack := rfl
@[simp] theorem State.setI_DT (a : Word) : (s.setI a).DT = s.DT := rfl
@[simp] theorem State.setI_ST (a : Word) : (s.setI a).ST = s.ST := rfl
@[simp] theorem State.setI_disp (a : Word) : (s.setI a).disp = s.disp := rfl
@[simp] theorem State.setI_mem (a : Word) : (s.setI a).mem = s.mem := rfl
@[simp] theorem State.setI_epoch (a : Word) : (s.setI a).epoch = s.epoch := rfl
@[simp] theorem State.setI_status (a : Word) : (s.setI a).status = s.status := rfl
@[simp] theorem State.setI_params (a : Word) : (s.setI a).params = s.params := rfl
@[simp] theorem State.setI_inputs (a : Word) : (s.setI a).inputs = s.inputs := rfl
@[simp] theorem State.setI_draw (a : Word) : (s.setI a).draw = s.draw := rfl
@[simp] theorem State.setI_reg (a : Word) (q : Reg) : (s.setI a).reg q = s.reg q := rfl
@[simp] theorem State.setI_byteAt (a : Word) (q : Nat) : (s.setI a).byteAt q = s.byteAt q := rfl
@[simp] theorem State.setI_pixelAt (a : Word) (q : Fin 32) (e : Fin 64) : (s.setI a).pixelAt q e = s.pixelAt q e := rfl
@[simp] theorem State.setI_input (a : Word) : (s.setI a).input = s.input := rfl

/-! ### `setPc` -/

@[simp] theorem State.setPc_V (a : Word) : (s.setPc a).V = s.V := rfl
@[simp] theorem State.setPc_I (a : Word) : (s.setPc a).I = s.I := rfl
@[simp] theorem State.setPc_pc (a : Word) : (s.setPc a).pc = a := rfl
@[simp] theorem State.setPc_sp (a : Word) : (s.setPc a).sp = s.sp := rfl
@[simp] theorem State.setPc_stack (a : Word) : (s.setPc a).stack = s.stack := rfl
@[simp] theorem State.setPc_DT (a : Word) : (s.setPc a).DT = s.DT := rfl
@[simp] theorem State.setPc_ST (a : Word) : (s.setPc a).ST = s.ST := rfl
@[simp] theorem State.setPc_disp (a : Word) : (s.setPc a).disp = s.disp := rfl
@[simp] theorem State.setPc_mem (a : Word) : (s.setPc a).mem = s.mem := rfl
@[simp] theorem State.setPc_epoch (a : Word) : (s.setPc a).epoch = s.epoch := rfl
@[simp] theorem State.setPc_status (a : Word) : (s.setPc a).status = s.status := rfl
@[simp] theorem State.setPc_params (a : Word) : (s.setPc a).params = s.params := rfl
@[simp] theorem State.setPc_inputs (a : Word) : (s.setPc a).inputs = s.inputs := rfl
@[simp] theorem State.setPc_draw (a : Word) : (s.setPc a).draw = s.draw := rfl
@[simp] theorem State.setPc_reg (a : Word) (q : Reg) : (s.setPc a).reg q = s.reg q := rfl
@[simp] theorem State.setPc_byteAt (a : Word) (q : Nat) : (s.setPc a).byteAt q = s.byteAt q := rfl
@[simp] theorem State.setPc_pixelAt (a : Word) (q : Fin 32) (e : Fin 64) : (s.setPc a).pixelAt q e = s.pixelAt q e := rfl
@[simp] theorem State.setPc_input (a : Word) : (s.setPc a).input = s.input := rfl

/-! ### `advance` -/

@[simp] theorem State.advance_V (n : Word) : (s.advance n).V = s.V := rfl
@[simp] theorem State.advance_I (n : Word) : (s.advance n).I = s.I := rfl
@[simp] theorem State.advance_pc (n : Word) : (s.advance n).pc = s.pc + n := rfl
@[simp] theorem State.advance_sp (n : Word) : (s.advance n).sp = s.sp := rfl
@[simp] theorem State.advance_stack (n : Word) : (s.advance n).stack = s.stack := rfl
@[simp] theorem State.advance_DT (n : Word) : (s.advance n).DT = s.DT := rfl
@[simp] theorem State.advance_ST (n : Word) : (s.advance n).ST = s.ST := rfl
@[simp] theorem State.advance_disp (n : Word) : (s.advance n).disp = s.disp := rfl
@[simp] theorem State.advance_mem (n : Word) : (s.advance n).mem = s.mem := rfl
@[simp] theorem State.advance_epoch (n : Word) : (s.advance n).epoch = s.epoch := rfl
@[simp] theorem State.advance_status (n : Word) : (s.advance n).status = s.status := rfl
@[simp] theorem State.advance_params (n : Word) : (s.advance n).params = s.params := rfl
@[simp] theorem State.advance_inputs (n : Word) : (s.advance n).inputs = s.inputs := rfl
@[simp] theorem State.advance_draw (n : Word) : (s.advance n).draw = s.draw := rfl
@[simp] theorem State.advance_reg (n : Word) (q : Reg) : (s.advance n).reg q = s.reg q := rfl
@[simp] theorem State.advance_byteAt (n : Word) (q : Nat) : (s.advance n).byteAt q = s.byteAt q := rfl
@[simp] theorem State.advance_pixelAt (n : Word) (q : Fin 32) (e : Fin 64) : (s.advance n).pixelAt q e = s.pixelAt q e := rfl
@[simp] theorem State.advance_input (n : Word) : (s.advance n).input = s.input := rfl

/-! ### `setDT` -/

@[simp] theorem State.setDT_V (b : Byte) : (s.setDT b).V = s.V := rfl
@[simp] theorem State.setDT_I (b : Byte) : (s.setDT b).I = s.I := rfl
@[simp] theorem State.setDT_pc (b : Byte) : (s.setDT b).pc = s.pc := rfl
@[simp] theorem State.setDT_sp (b : Byte) : (s.setDT b).sp = s.sp := rfl
@[simp] theorem State.setDT_stack (b : Byte) : (s.setDT b).stack = s.stack := rfl
@[simp] theorem State.setDT_DT (b : Byte) : (s.setDT b).DT = b := rfl
@[simp] theorem State.setDT_ST (b : Byte) : (s.setDT b).ST = s.ST := rfl
@[simp] theorem State.setDT_disp (b : Byte) : (s.setDT b).disp = s.disp := rfl
@[simp] theorem State.setDT_mem (b : Byte) : (s.setDT b).mem = s.mem := rfl
@[simp] theorem State.setDT_epoch (b : Byte) : (s.setDT b).epoch = s.epoch := rfl
@[simp] theorem State.setDT_status (b : Byte) : (s.setDT b).status = s.status := rfl
@[simp] theorem State.setDT_params (b : Byte) : (s.setDT b).params = s.params := rfl
@[simp] theorem State.setDT_inputs (b : Byte) : (s.setDT b).inputs = s.inputs := rfl
@[simp] theorem State.setDT_draw (b : Byte) : (s.setDT b).draw = s.draw := rfl
@[simp] theorem State.setDT_reg (b : Byte) (q : Reg) : (s.setDT b).reg q = s.reg q := rfl
@[simp] theorem State.setDT_byteAt (b : Byte) (q : Nat) : (s.setDT b).byteAt q = s.byteAt q := rfl
@[simp] theorem State.setDT_pixelAt (b : Byte) (q : Fin 32) (e : Fin 64) : (s.setDT b).pixelAt q e = s.pixelAt q e := rfl
@[simp] theorem State.setDT_input (b : Byte) : (s.setDT b).input = s.input := rfl

/-! ### `setST` -/

@[simp] theorem State.setST_V (b : Byte) : (s.setST b).V = s.V := rfl
@[simp] theorem State.setST_I (b : Byte) : (s.setST b).I = s.I := rfl
@[simp] theorem State.setST_pc (b : Byte) : (s.setST b).pc = s.pc := rfl
@[simp] theorem State.setST_sp (b : Byte) : (s.setST b).sp = s.sp := rfl
@[simp] theorem State.setST_stack (b : Byte) : (s.setST b).stack = s.stack := rfl
@[simp] theorem State.setST_DT (b : Byte) : (s.setST b).DT = s.DT := rfl
@[simp] theorem State.setST_ST (b : Byte) : (s.setST b).ST = b := rfl
@[simp] theorem State.setST_disp (b : Byte) : (s.setST b).disp = s.disp := rfl
@[simp] theorem State.setST_mem (b : Byte) : (s.setST b).mem = s.mem := rfl
@[simp] theorem State.setST_epoch (b : Byte) : (s.setST b).epoch = s.epoch := rfl
@[simp] theorem State.setST_status (b : Byte) : (s.setST b).status = s.status := rfl
@[simp] theorem State.setST_params (b : Byte) : (s.setST b).params = s.params := rfl
@[simp] theorem State.setST_inputs (b : Byte) : (s.setST b).inputs = s.inputs := rfl
@[simp] theorem State.setST_draw (b : Byte) : (s.setST b).draw = s.draw := rfl
@[simp] theorem State.setST_reg (b : Byte) (q : Reg) : (s.setST b).reg q = s.reg q := rfl
@[simp] theorem State.setST_byteAt (b : Byte) (q : Nat) : (s.setST b).byteAt q = s.byteAt q := rfl
@[simp] theorem State.setST_pixelAt (b : Byte) (q : Fin 32) (e : Fin 64) : (s.setST b).pixelAt q e = s.pixelAt q e := rfl
@[simp] theorem State.setST_input (b : Byte) : (s.setST b).input = s.input := rfl

/-! ### `setDisp` -/

@[simp] theorem State.setDisp_V (d : Display) : (s.setDisp d).V = s.V := rfl
@[simp] theorem State.setDisp_I (d : Display) : (s.setDisp d).I = s.I := rfl
@[simp] theorem State.setDisp_pc (d : Display) : (s.setDisp d).pc = s.pc := rfl
@[simp] theorem State.setDisp_sp (d : Display) : (s.setDisp d).sp = s.sp := rfl
@[simp] theorem State.setDisp_stack (d : Display) : (s.setDisp d).stack = s.stack := rfl
@[simp] theorem State.setDisp_DT (d : Display) : (s.setDisp d).DT = s.DT := rfl
@[simp] theorem State.setDisp_ST (d : Display) : (s.setDisp d).ST = s.ST := rfl
@[simp] theorem State.setDisp_disp (d : Display) : (s.setDisp d).disp = d := rfl
@[simp] theorem State.setDisp_mem (d : Display) : (s.setDisp d).mem = s.mem := rfl
@[simp] theorem State.setDisp_epoch (d : Display) : (s.setDisp d).epoch = s.epoch := rfl
@[simp] theorem State.setDisp_status (d : Display) : (s.setDisp d).status = s.status := rfl
@[simp] theorem State.setDisp_params (d : Display) : (s.setDisp d).params = s.params := rfl
@[simp] theorem State.setDisp_inputs (d : Display) : (s.setDisp d).inputs = s.inputs := rfl
@[simp] theorem State.setDisp_draw (d : Display) : (s.setDisp d).draw = s.draw := rfl
@[simp] theorem State.setDisp_reg (d : Display) (q : Reg) : (s.setDisp d).reg q = s.reg q := rfl
@[simp] theorem State.setDisp_byteAt (d : Display) (q : Nat) : (s.setDisp d).byteAt q = s.byteAt q := rfl
@[simp] theorem State.setDisp_input (d : Display) : (s.setDisp d).input = s.input := rfl

/-! ### `setMem` -/

@[simp] theorem State.setMem_V (m : Memory) : (s.setMem m).V = s.V := rfl
@[simp] theorem State.setMem_I (m : Memory) : (s.setMem m).I = s.I := rfl
@[simp] theorem State.setMem_pc (m : Memory) : (s.setMem m).pc = s.pc := rfl
@[simp] theorem State.setMem_sp (m : Memory) : (s.setMem m).sp = s.sp := rfl
@[simp] theorem State.setMem_stack (m : Memory) : (s.setMem m).stack = s.stack := rfl
@[simp] theorem State.setMem_DT (m : Memory) : (s.setMem m).DT = s.DT := rfl
@[simp] theorem State.setMem_ST (m : Memory) : (s.setMem m).ST = s.ST := rfl
@[simp] theorem State.setMem_disp (m : Memory) : (s.setMem m).disp = s.disp := rfl
@[simp] theorem State.setMem_mem (m : Memory) : (s.setMem m).mem = m := rfl
@[simp] theorem State.setMem_epoch (m : Memory) : (s.setMem m).epoch = s.epoch := rfl
@[simp] theorem State.setMem_status (m : Memory) : (s.setMem m).status = s.status := rfl
@[simp] theorem State.setMem_params (m : Memory) : (s.setMem m).params = s.params := rfl
@[simp] theorem State.setMem_inputs (m : Memory) : (s.setMem m).inputs = s.inputs := rfl
@[simp] theorem State.setMem_draw (m : Memory) : (s.setMem m).draw = s.draw := rfl
@[simp] theorem State.setMem_reg (m : Memory) (q : Reg) : (s.setMem m).reg q = s.reg q := rfl
@[simp] theorem State.setMem_pixelAt (m : Memory) (q : Fin 32) (e : Fin 64) : (s.setMem m).pixelAt q e = s.pixelAt q e := rfl
@[simp] theorem State.setMem_input (m : Memory) : (s.setMem m).input = s.input := rfl

/-! ### `setStack` -/

@[simp] theorem State.setStack_V (p : Fin 17) (k : Vector Word 16) : (s.setStack p k).V = s.V := rfl
@[simp] theorem State.setStack_I (p : Fin 17) (k : Vector Word 16) : (s.setStack p k).I = s.I := rfl
@[simp] theorem State.setStack_pc (p : Fin 17) (k : Vector Word 16) : (s.setStack p k).pc = s.pc := rfl
@[simp] theorem State.setStack_sp (p : Fin 17) (k : Vector Word 16) : (s.setStack p k).sp = p := rfl
@[simp] theorem State.setStack_stack (p : Fin 17) (k : Vector Word 16) : (s.setStack p k).stack = k := rfl
@[simp] theorem State.setStack_DT (p : Fin 17) (k : Vector Word 16) : (s.setStack p k).DT = s.DT := rfl
@[simp] theorem State.setStack_ST (p : Fin 17) (k : Vector Word 16) : (s.setStack p k).ST = s.ST := rfl
@[simp] theorem State.setStack_disp (p : Fin 17) (k : Vector Word 16) : (s.setStack p k).disp = s.disp := rfl
@[simp] theorem State.setStack_mem (p : Fin 17) (k : Vector Word 16) : (s.setStack p k).mem = s.mem := rfl
@[simp] theorem State.setStack_epoch (p : Fin 17) (k : Vector Word 16) : (s.setStack p k).epoch = s.epoch := rfl
@[simp] theorem State.setStack_status (p : Fin 17) (k : Vector Word 16) : (s.setStack p k).status = s.status := rfl
@[simp] theorem State.setStack_params (p : Fin 17) (k : Vector Word 16) : (s.setStack p k).params = s.params := rfl
@[simp] theorem State.setStack_inputs (p : Fin 17) (k : Vector Word 16) : (s.setStack p k).inputs = s.inputs := rfl
@[simp] theorem State.setStack_draw (p : Fin 17) (k : Vector Word 16) : (s.setStack p k).draw = s.draw := rfl
@[simp] theorem State.setStack_reg (p : Fin 17) (k : Vector Word 16) (q : Reg) : (s.setStack p k).reg q = s.reg q := rfl
@[simp] theorem State.setStack_byteAt (p : Fin 17) (k : Vector Word 16) (q : Nat) : (s.setStack p k).byteAt q = s.byteAt q := rfl
@[simp] theorem State.setStack_pixelAt (p : Fin 17) (k : Vector Word 16) (q : Fin 32) (e : Fin 64) : (s.setStack p k).pixelAt q e = s.pixelAt q e := rfl
@[simp] theorem State.setStack_input (p : Fin 17) (k : Vector Word 16) : (s.setStack p k).input = s.input := rfl

/-! ### `fail` -/

@[simp] theorem State.fail_V (f : Failure) : (s.fail f).V = s.V := rfl
@[simp] theorem State.fail_I (f : Failure) : (s.fail f).I = s.I := rfl
@[simp] theorem State.fail_pc (f : Failure) : (s.fail f).pc = s.pc := rfl
@[simp] theorem State.fail_sp (f : Failure) : (s.fail f).sp = s.sp := rfl
@[simp] theorem State.fail_stack (f : Failure) : (s.fail f).stack = s.stack := rfl
@[simp] theorem State.fail_DT (f : Failure) : (s.fail f).DT = s.DT := rfl
@[simp] theorem State.fail_ST (f : Failure) : (s.fail f).ST = s.ST := rfl
@[simp] theorem State.fail_disp (f : Failure) : (s.fail f).disp = s.disp := rfl
@[simp] theorem State.fail_mem (f : Failure) : (s.fail f).mem = s.mem := rfl
@[simp] theorem State.fail_epoch (f : Failure) : (s.fail f).epoch = s.epoch := rfl
@[simp] theorem State.fail_status (f : Failure) : (s.fail f).status = .failed f := rfl
@[simp] theorem State.fail_params (f : Failure) : (s.fail f).params = s.params := rfl
@[simp] theorem State.fail_inputs (f : Failure) : (s.fail f).inputs = s.inputs := rfl
@[simp] theorem State.fail_draw (f : Failure) : (s.fail f).draw = s.draw := rfl
@[simp] theorem State.fail_reg (f : Failure) (q : Reg) : (s.fail f).reg q = s.reg q := rfl
@[simp] theorem State.fail_byteAt (f : Failure) (q : Nat) : (s.fail f).byteAt q = s.byteAt q := rfl
@[simp] theorem State.fail_pixelAt (f : Failure) (q : Fin 32) (e : Fin 64) : (s.fail f).pixelAt q e = s.pixelAt q e := rfl
@[simp] theorem State.fail_input (f : Failure) : (s.fail f).input = s.input := rfl

/-! ### `timerTick` -/

@[simp] theorem State.timerTick_V : s.timerTick.V = s.V := rfl
@[simp] theorem State.timerTick_I : s.timerTick.I = s.I := rfl
@[simp] theorem State.timerTick_pc : s.timerTick.pc = s.pc := rfl
@[simp] theorem State.timerTick_sp : s.timerTick.sp = s.sp := rfl
@[simp] theorem State.timerTick_stack : s.timerTick.stack = s.stack := rfl
@[simp] theorem State.timerTick_DT : s.timerTick.DT = (if s.epoch && s.input.tick then satDec s.DT else s.DT) := rfl
@[simp] theorem State.timerTick_ST : s.timerTick.ST = (if s.epoch && s.input.tick then satDec s.ST else s.ST) := rfl
@[simp] theorem State.timerTick_disp : s.timerTick.disp = s.disp := rfl
@[simp] theorem State.timerTick_mem : s.timerTick.mem = s.mem := rfl
@[simp] theorem State.timerTick_epoch : s.timerTick.epoch = true := rfl
@[simp] theorem State.timerTick_status : s.timerTick.status = s.status := rfl
@[simp] theorem State.timerTick_params : s.timerTick.params = s.params := rfl
@[simp] theorem State.timerTick_inputs : s.timerTick.inputs = s.inputs := rfl
@[simp] theorem State.timerTick_draw : s.timerTick.draw = s.draw := rfl
@[simp] theorem State.timerTick_reg (q : Reg) : s.timerTick.reg q = s.reg q := rfl
@[simp] theorem State.timerTick_byteAt (q : Nat) : s.timerTick.byteAt q = s.byteAt q := rfl
@[simp] theorem State.timerTick_pixelAt (q : Fin 32) (e : Fin 64) : s.timerTick.pixelAt q e = s.pixelAt q e := rfl
@[simp] theorem State.timerTick_input : s.timerTick.input = s.input := rfl

/-! ### Reading a written register or pixel -/

@[simp] theorem State.reg_setReg_same (r : Reg) (b : Byte) : (s.setReg r b).reg r = b := by
  simp [State.reg]

theorem State.reg_setReg_ne (b : Byte) (r q : Reg) (h : q ≠ r) : (s.setReg r b).reg q = s.reg q := by
  have h' : r.val ≠ q.val := fun e => h (Fin.ext e.symm)
  simp [State.reg, h']

theorem State.reg_setReg (b : Byte) (r q : Reg) :
    (s.setReg r b).reg q = if q = r then b else s.reg q := by
  split
  · next h => rw [h, State.reg_setReg_same]
  · next h => exact State.reg_setReg_ne s b r q h

@[simp] theorem State.reg_setFlag_same (c : Bool) : (s.setFlag c).reg VF = b2u c :=
  State.reg_setReg_same s VF (b2u c)

theorem State.reg_setFlag_ne (c : Bool) (q : Reg) (h : q ≠ VF) : (s.setFlag c).reg q = s.reg q :=
  State.reg_setReg_ne s (b2u c) VF q h

@[simp] theorem State.setReg_reg_self (r : Reg) : s.setReg r (s.reg r) = s := by
  simp [State.setReg, State.reg]

@[simp] theorem State.byteAt_setMem (m : Memory) (a : Nat) :
    (s.setMem m).byteAt a = Memory.read s.params.font m a := rfl

@[simp] theorem State.pixelAt_setDisp (d : Display) (r : Fin 32) (c : Fin 64) :
    (s.setDisp d).pixelAt r c = d[r.val][c.val] := rfl

/-! ### The inputs used up -/

@[simp] theorem State.nextInput_V : s.nextInput.V = s.V := by
  unfold State.nextInput; split <;> rfl
@[simp] theorem State.nextInput_I : s.nextInput.I = s.I := by
  unfold State.nextInput; split <;> rfl
@[simp] theorem State.nextInput_pc : s.nextInput.pc = s.pc := by
  unfold State.nextInput; split <;> rfl
@[simp] theorem State.nextInput_sp : s.nextInput.sp = s.sp := by
  unfold State.nextInput; split <;> rfl
@[simp] theorem State.nextInput_stack : s.nextInput.stack = s.stack := by
  unfold State.nextInput; split <;> rfl
@[simp] theorem State.nextInput_DT : s.nextInput.DT = s.DT := by
  unfold State.nextInput; split <;> rfl
@[simp] theorem State.nextInput_ST : s.nextInput.ST = s.ST := by
  unfold State.nextInput; split <;> rfl
@[simp] theorem State.nextInput_disp : s.nextInput.disp = s.disp := by
  unfold State.nextInput; split <;> rfl
@[simp] theorem State.nextInput_mem : s.nextInput.mem = s.mem := by
  unfold State.nextInput; split <;> rfl
@[simp] theorem State.nextInput_epoch : s.nextInput.epoch = s.epoch := by
  unfold State.nextInput; split <;> rfl
@[simp] theorem State.nextInput_status : s.nextInput.status = s.status := by
  unfold State.nextInput; split <;> rfl
@[simp] theorem State.nextInput_params : s.nextInput.params = s.params := by
  unfold State.nextInput; split <;> rfl
@[simp] theorem State.nextInput_reg (q : Reg) : s.nextInput.reg q = s.reg q := by
  unfold State.nextInput; split <;> rfl
@[simp] theorem State.nextInput_byteAt (q : Nat) : s.nextInput.byteAt q = s.byteAt q := by
  unfold State.nextInput; split <;> rfl
@[simp] theorem State.nextInput_pixelAt (q : Fin 32) (e : Fin 64) : s.nextInput.pixelAt q e = s.pixelAt q e := by
  unfold State.nextInput; split <;> rfl

end Sys2Proof.Machine
end

