-- ==== Sys2Proof/Laws/Ops.lean ====
section
/-! SUPPORT. One lemma for each shared operation that says everything it can do. -/

namespace Sys2Proof.Machine

/-! ### Registers -/

/-- A byte of `bs` written from register `k` on, or the old value. -/
theorem State.reg_setRegsFrom (bs : List Byte) : ∀ (s : State) (k : Nat) (q : Reg),
    (s.setRegsFrom k bs).reg q =
      if h : k ≤ q.val ∧ q.val - k < bs.length then bs[q.val - k]'h.2 else s.reg q := by
  induction bs with
  | nil => intro s k q; simp [State.setRegsFrom]
  | cons b bs ih =>
    intro s k q
    rw [State.setRegsFrom, ih]
    by_cases h1 : k + 1 ≤ q.val ∧ q.val - (k + 1) < bs.length
    · have h2 : k ≤ q.val ∧ q.val - k < (b :: bs).length := by simp; omega
      have e : q.val - k = (q.val - (k + 1)) + 1 := by omega
      rw [dif_pos h1, dif_pos h2]
      simp [e]
    · rw [dif_neg h1]
      by_cases hk : k = q.val
      · have hk16 : k < 16 := by omega
        have h2 : k ≤ q.val ∧ q.val - k < (b :: bs).length := by simp; omega
        rw [dif_pos h2, dif_pos hk16]
        subst hk
        simp
      · have h2 : ¬ (k ≤ q.val ∧ q.val - k < (b :: bs).length) := by simp; omega
        rw [dif_neg h2]
        split
        · exact State.reg_setReg_ne _ _ _ _ fun e => hk (by rw [e])
        · rfl

/-- Writing a register block changes nothing but V. -/
theorem State.setRegsFrom_eq (bs : List Byte) : ∀ (s : State) (k : Nat),
    s.setRegsFrom k bs = { s with V := (s.setRegsFrom k bs).V } := by
  induction bs with
  | nil => intro s k; rfl
  | cons b bs ih =>
    intro s k
    rw [State.setRegsFrom, ih]
    split <;> rfl

/-! ### Memory accesses -/

/-- A write that is allowed replaces one byte. -/
theorem State.memWrite_of_writable (s : State) (a : Nat) (v : Byte) (h : s.writable a 1) :
    s.memWrite a v = .ok (s.setMem (Memory.write s.params.font s.mem a v)) := by
  obtain ⟨h1, h2⟩ := h
  unfold State.memWrite
  rw [if_neg (by omega), if_neg]
  simp only [Bool.and_eq_true, decide_eq_true_eq, not_and]
  intro hp; have := h2 hp; omega

/-- A write that is not allowed fails. -/
theorem State.memWrite_of_not_writable (s : State) (a : Nat) (v : Byte) (h : ¬ s.writable a 1) :
    s.memWrite a v = .error (s.writeFailure a) := by
  have hr : reservedEnd < memSize := by decide
  unfold State.memWrite State.writeFailure
  by_cases ha : memSize ≤ a
  · rw [if_pos ha, if_neg (by omega), Nat.max_eq_left ha]
  · have hp : s.params.protectReserved = true ∧ a ≤ reservedEnd := by
      by_contra hc
      exact h ⟨by omega, fun hp => by by_contra h3; exact hc ⟨hp, by omega⟩⟩
    rw [if_neg ha, if_pos (by simp [hp]), if_pos hp]

/-- Writes in sequence, all allowed, replace the bytes of their range. -/
theorem State.storeBytes_of_writable (vs : List Byte) : ∀ (s : State) (a : Nat), s.writable a vs.length →
    s.storeBytes a vs = .ok (s.setMem (Memory.writeAll s.params.font s.mem a vs)) := by
  induction vs with
  | nil => intro s a _; rfl
  | cons v vs ih =>
    intro s a h
    obtain ⟨h1, h2⟩ := h
    simp only [List.length_cons] at h1
    rw [State.storeBytes, State.memWrite_of_writable s a v ⟨by omega, h2⟩]
    simp only
    rw [ih _ _ ⟨by omega, fun hp => by have := h2 hp; omega⟩]
    rfl

/-- Writes in sequence, at least one and not all allowed, fail at the first that is not. -/
theorem State.storeBytes_of_not_writable (vs : List Byte) (hne : vs ≠ []) : ∀ (s : State) (a : Nat),
    ¬ s.writable a vs.length → s.storeBytes a vs = .error (s.writeFailure a) := by
  have hr : reservedEnd < memSize := by decide
  induction vs with
  | nil => exact absurd rfl hne
  | cons v vs ih =>
    intro s a h
    rw [State.storeBytes]
    by_cases h1 : s.writable a 1
    · rw [State.memWrite_of_writable s a v h1]
      simp only
      obtain ⟨h1a, h1b⟩ := h1
      have hlen : ¬ a + (v :: vs).length ≤ memSize := fun hl => h ⟨hl, h1b⟩
      simp only [List.length_cons] at hlen
      have hvs : vs ≠ [] := by rintro rfl; simp at hlen; omega
      rw [ih hvs]
      · have n1 : ¬ (s.params.protectReserved = true ∧ a + 1 ≤ reservedEnd) := fun hc => by
          have := h1b hc.1; omega
        have n2 : ¬ (s.params.protectReserved = true ∧ a ≤ reservedEnd) := fun hc => by
          have := h1b hc.1; omega
        have e : max (a + 1) memSize = max a memSize := by omega
        simp only [State.writeFailure, State.setMem_params, n1, n2, if_false, e]
      · rintro ⟨h3, _⟩; omega
    · rw [State.memWrite_of_not_writable s a v h1]

/-- Writes in sequence, at least one: what they do, in every case. -/
theorem State.storeBytes_cases (s : State) (a : Nat) (vs : List Byte) (hne : vs ≠ []) :
    (s.writable a vs.length ∧
      s.storeBytes a vs = .ok (s.setMem (Memory.writeAll s.params.font s.mem a vs))) ∨
    (¬ s.writable a vs.length ∧ s.storeBytes a vs = .error (s.writeFailure a)) := by
  by_cases h : s.writable a vs.length
  · exact .inl ⟨h, State.storeBytes_of_writable vs s a h⟩
  · exact .inr ⟨h, State.storeBytes_of_not_writable vs hne s a h⟩

/-- Reads in sequence, all allowed, give the bytes of their range. -/
theorem State.loadBytes_of_readable (s : State) : ∀ (n a : Nat), readable a n →
    s.loadBytes a n = .ok ((List.range n).map fun k => s.byteAt (a + k)) := by
  intro n
  induction n with
  | zero => intro a _; rfl
  | succ n ih =>
    intro a h
    have h' : a + (n + 1) ≤ memSize := h.resolve_left (by omega)
    rw [State.loadBytes, State.memRead, if_pos (by omega)]
    simp only
    rw [ih (a + 1) (by unfold readable; omega)]
    simp only [List.range_succ_eq_map, List.map_cons, List.map_map, Nat.add_zero]
    congr 2
    refine List.map_congr_left fun k _ => ?_
    simp only [Function.comp_apply, Nat.succ_eq_add_one]
    rw [Nat.add_assoc, Nat.add_comm 1 k]

/-- Reads in sequence, not all allowed, fail at the first address above memory. -/
theorem State.loadBytes_of_not_readable (s : State) : ∀ (n a : Nat), ¬ readable a n →
    s.loadBytes a n = .error (.memReadOutOfRange (max a memSize)) := by
  intro n
  induction n with
  | zero => intro a h; exact absurd (.inl rfl) h
  | succ n ih =>
    intro a h
    rw [State.loadBytes, State.memRead]
    by_cases ha : a < memSize
    · rw [if_pos ha]
      simp only
      rw [ih (a + 1) (by unfold readable at h ⊢; omega)]
      simp only
      congr 2
      omega
    · rw [if_neg ha, Nat.max_eq_left (by omega)]

/-- The values a register block stores. -/
theorem State.regBlock_length (s : State) (x : Reg) : (s.regBlock x).length = x.val + 1 := by
  simp [State.regBlock]

theorem State.regBlock_getElem (s : State) (x : Reg) (k : Nat) (h : k < (s.regBlock x).length) :
    (s.regBlock x)[k] = s.reg (Fin.ofNat 16 k) := by
  simp [State.regBlock]

theorem State.effAddr_zero (s : State) : s.effAddr 0 = s.I.toNat := rfl

/-! ### Timers and the commit -/

@[simp] theorem State.timerBefore_of_before (s : State) (h : s.params.timerPhase = .before) :
    s.timerBefore = s.timerTick := by simp [State.timerBefore, h]

@[simp] theorem State.timerBefore_of_after (s : State) (h : s.params.timerPhase = .after) :
    s.timerBefore = s := by simp [State.timerBefore, h]

@[simp] theorem State.timerAfter_of_before (s : State) (h : s.params.timerPhase = .before) :
    s.timerAfter = s := by simp [State.timerAfter, h]

@[simp] theorem State.timerAfter_of_after (s : State) (h : s.params.timerPhase = .after) :
    s.timerAfter = s.timerTick := by simp [State.timerAfter, h]

/-- The timer phase before the execute phase is the timer phase or nothing. -/
theorem State.timerBefore_cases (s : State) : s.timerBefore = s.timerTick ∨ s.timerBefore = s := by
  unfold State.timerBefore; split <;> simp

/-- The timer phase after the execute phase is nothing or the timer phase. -/
theorem State.timerAfter_cases (s : State) : s.timerAfter = s.timerTick ∨ s.timerAfter = s := by
  unfold State.timerAfter; split <;> simp

/-- A decrement takes at most one, and stops at zero. -/
theorem satDec_toNat (t : Byte) : (satDec t).toNat = t.toNat - 1 := by
  unfold satDec
  split
  · next h => simp [h]
  · next h =>
    have : t.toNat ≠ 0 := fun e => h (BitVec.eq_of_toNat_eq e)
    simp [BitVec.toNat_sub]
    omega

/-- The fetch, in both cases. -/
theorem State.fetch_cases (s : State) :
    (s.pc.toNat + 1 < memSize ∧ s.fetch = .ok (s.byteAt s.pc.toNat, s.byteAt (s.pc.toNat + 1))) ∨
    (¬ s.pc.toNat + 1 < memSize ∧ s.fetch = .error (.fetchOutOfRange s.pc)) := by
  unfold State.fetch
  by_cases h : s.pc.toNat + 1 < memSize
  · exact .inl ⟨h, if_pos h⟩
  · exact .inr ⟨h, if_neg h⟩

/-! ### The timer phase around an instruction changes only DT, ST and `epoch` -/

@[simp] theorem State.timerBefore_V (s : State) : s.timerBefore.V = s.V := by
  unfold State.timerBefore; split <;> rfl
@[simp] theorem State.timerBefore_I (s : State) : s.timerBefore.I = s.I := by
  unfold State.timerBefore; split <;> rfl
@[simp] theorem State.timerBefore_pc (s : State) : s.timerBefore.pc = s.pc := by
  unfold State.timerBefore; split <;> rfl
@[simp] theorem State.timerBefore_sp (s : State) : s.timerBefore.sp = s.sp := by
  unfold State.timerBefore; split <;> rfl
@[simp] theorem State.timerBefore_stack (s : State) : s.timerBefore.stack = s.stack := by
  unfold State.timerBefore; split <;> rfl
@[simp] theorem State.timerBefore_disp (s : State) : s.timerBefore.disp = s.disp := by
  unfold State.timerBefore; split <;> rfl
@[simp] theorem State.timerBefore_mem (s : State) : s.timerBefore.mem = s.mem := by
  unfold State.timerBefore; split <;> rfl
@[simp] theorem State.timerBefore_status (s : State) : s.timerBefore.status = s.status := by
  unfold State.timerBefore; split <;> rfl
@[simp] theorem State.timerBefore_params (s : State) : s.timerBefore.params = s.params := by
  unfold State.timerBefore; split <;> rfl
@[simp] theorem State.timerBefore_inputs (s : State) : s.timerBefore.inputs = s.inputs := by
  unfold State.timerBefore; split <;> rfl
@[simp] theorem State.timerBefore_draw (s : State) : s.timerBefore.draw = s.draw := by
  unfold State.timerBefore; split <;> rfl
@[simp] theorem State.timerBefore_input (s : State) : s.timerBefore.input = s.input := by
  unfold State.timerBefore; split <;> rfl
@[simp] theorem State.timerBefore_reg (s : State) (q : Reg) : s.timerBefore.reg q = s.reg q := by
  unfold State.timerBefore; split <;> rfl
@[simp] theorem State.timerBefore_byteAt (s : State) (q : Nat) : s.timerBefore.byteAt q = s.byteAt q := by
  unfold State.timerBefore; split <;> rfl
@[simp] theorem State.timerBefore_effAddr (s : State) (q : Nat) : s.timerBefore.effAddr q = s.effAddr q := by
  unfold State.timerBefore; split <;> rfl
@[simp] theorem State.timerBefore_pixelAt (s : State) (q : Fin 32) (e : Fin 64) :
    s.timerBefore.pixelAt q e = s.pixelAt q e := by
  unfold State.timerBefore; split <;> rfl
@[simp] theorem State.timerAfter_V (s : State) : s.timerAfter.V = s.V := by
  unfold State.timerAfter; split <;> rfl
@[simp] theorem State.timerAfter_I (s : State) : s.timerAfter.I = s.I := by
  unfold State.timerAfter; split <;> rfl
@[simp] theorem State.timerAfter_pc (s : State) : s.timerAfter.pc = s.pc := by
  unfold State.timerAfter; split <;> rfl
@[simp] theorem State.timerAfter_sp (s : State) : s.timerAfter.sp = s.sp := by
  unfold State.timerAfter; split <;> rfl
@[simp] theorem State.timerAfter_stack (s : State) : s.timerAfter.stack = s.stack := by
  unfold State.timerAfter; split <;> rfl
@[simp] theorem State.timerAfter_disp (s : State) : s.timerAfter.disp = s.disp := by
  unfold State.timerAfter; split <;> rfl
@[simp] theorem State.timerAfter_mem (s : State) : s.timerAfter.mem = s.mem := by
  unfold State.timerAfter; split <;> rfl
@[simp] theorem State.timerAfter_status (s : State) : s.timerAfter.status = s.status := by
  unfold State.timerAfter; split <;> rfl
@[simp] theorem State.timerAfter_params (s : State) : s.timerAfter.params = s.params := by
  unfold State.timerAfter; split <;> rfl
@[simp] theorem State.timerAfter_inputs (s : State) : s.timerAfter.inputs = s.inputs := by
  unfold State.timerAfter; split <;> rfl
@[simp] theorem State.timerAfter_draw (s : State) : s.timerAfter.draw = s.draw := by
  unfold State.timerAfter; split <;> rfl
@[simp] theorem State.timerAfter_input (s : State) : s.timerAfter.input = s.input := by
  unfold State.timerAfter; split <;> rfl
@[simp] theorem State.timerAfter_reg (s : State) (q : Reg) : s.timerAfter.reg q = s.reg q := by
  unfold State.timerAfter; split <;> rfl
@[simp] theorem State.timerAfter_byteAt (s : State) (q : Nat) : s.timerAfter.byteAt q = s.byteAt q := by
  unfold State.timerAfter; split <;> rfl
@[simp] theorem State.timerAfter_effAddr (s : State) (q : Nat) : s.timerAfter.effAddr q = s.effAddr q := by
  unfold State.timerAfter; split <;> rfl
@[simp] theorem State.timerAfter_pixelAt (s : State) (q : Fin 32) (e : Fin 64) :
    s.timerAfter.pixelAt q e = s.pixelAt q e := by
  unfold State.timerAfter; split <;> rfl

end Sys2Proof.Machine
end

