-- ==== Sys2Proof/Laws/Step.lean ====
section
/-! SUPPORT. What an execute phase and a step can do, once: every execute phase answers a next state, which is
either the failure taken or keeps the control part of the state; and a step's four cases. -/

namespace Sys2Proof.Machine

/-- The part of the state no completed execute phase changes. -/
structure SameControl (s t : State) : Prop where
  epoch : t.epoch = s.epoch
  status : t.status = s.status
  params : t.params = s.params
  inputs : t.inputs = s.inputs
  draw : t.draw = s.draw

/-- The outcome of an execute phase from `s`. -/
def ExecOutcome (s : State) (r : Result) : Prop :=
  (∃ f, r = .next (s.fail f)) ∨ ∃ t, r = .next t ∧ SameControl s t

theorem ExecOutcome.next {s t : State} (h : SameControl s t) : ExecOutcome s (.next t) := .inr ⟨t, rfl, h⟩

/-- An instruction that may raise: what its computation must keep. -/
theorem ExecOutcome.orFail {s : State} {r : Except Failure State} (h : ∀ t, r = .ok t → SameControl s t) :
    ExecOutcome s (s.orFail r) := by
  cases r with
  | error f => exact .inl ⟨f, rfl⟩
  | ok t => exact .inr ⟨t, rfl, h t rfl⟩

theorem State.bumpI_control (s t : State) (x : Reg) (h : SameControl s t) : SameControl s (t.bumpI x) := by
  unfold State.bumpI
  split
  · exact ⟨h.epoch, h.status, h.params, h.inputs, h.draw⟩
  · exact h

theorem State.storeBytes_control (s t : State) (a : Nat) (vs : List Byte) (hne : vs ≠ [])
    (h : s.storeBytes a vs = .ok t) : SameControl s t := by
  rcases State.storeBytes_cases s a vs hne with ⟨_, e⟩ | ⟨_, e⟩ <;> rw [e] at h <;> simp at h
  subst h
  exact ⟨rfl, rfl, rfl, rfl, rfl⟩

/-- Every execute phase answers a next state; it fails, or keeps the control part. -/
theorem exec_outcome (i : Instr) (s : State) : ExecOutcome s (exec i s) := by
  cases i with
  | ret =>
    refine ExecOutcome.orFail fun t h => ?_
    unfold State.pop at h
    split at h
    · simp at h
    · next u v e =>
      split at e <;> simp at e
      obtain ⟨rfl, rfl⟩ := e
      simp at h; subst h
      exact ⟨rfl, rfl, rfl, rfl, rfl⟩
  | call nnn =>
    refine ExecOutcome.orFail fun t h => ?_
    unfold State.push at h
    split at h
    · simp at h
    · next u e =>
      split at e <;> simp at e
      subst e
      simp at h; subst h
      exact ⟨rfl, rfl, rfl, rfl, rfl⟩
  | skp x =>
    refine ExecOutcome.orFail fun t h => ?_
    split at h <;> simp at h
    subst h; exact ⟨rfl, rfl, rfl, rfl, rfl⟩
  | sknp x =>
    refine ExecOutcome.orFail fun t h => ?_
    split at h <;> simp at h
    subst h; exact ⟨rfl, rfl, rfl, rfl, rfl⟩
  | drw x y n =>
    refine ExecOutcome.orFail fun t h => ?_
    split at h <;> simp at h
    subst h; exact ⟨rfl, rfl, rfl, rfl, rfl⟩
  | ldB x =>
    refine ExecOutcome.orFail fun t h => ?_
    split at h
    · simp at h
    · next u e =>
      simp at h; subst h
      have c := State.storeBytes_control s u _ _ (by simp [bcdDigits]) e
      exact ⟨c.epoch, c.status, c.params, c.inputs, c.draw⟩
  | storeRegs x =>
    refine ExecOutcome.orFail fun t h => ?_
    split at h
    · simp at h
    · next u e =>
      simp at h; subst h
      have hne : s.regBlock x ≠ [] := fun e => by
        have := State.regBlock_length s x; rw [e] at this; simp at this
      have c := State.bumpI_control s u x (State.storeBytes_control s u _ _ hne e)
      exact ⟨c.epoch, c.status, c.params, c.inputs, c.draw⟩
  | loadRegs x =>
    refine ExecOutcome.orFail fun t h => ?_
    split at h
    · simp at h
    · next bs e =>
      simp at h; subst h
      have c := State.bumpI_control s (s.setRegsFrom 0 bs) x
        (by rw [State.setRegsFrom_eq]; exact ⟨rfl, rfl, rfl, rfl, rfl⟩)
      exact ⟨c.epoch, c.status, c.params, c.inputs, c.draw⟩
  | cls | sys _ | jp _ | seByte _ _ | sneByte _ _ | seReg _ _ | ldByte _ _ | addByte _ _ | ldReg _ _
  | orReg _ _ | andReg _ _ | xorReg _ _ | addReg _ _ | sub _ _ | shr _ _ | subn _ _ | shl _ _ | sneReg _ _
  | ldI _ | jpV0 _ | rnd _ _ | ldVxDT _ | ldVxK _ | ldDTVx _ | ldSTVx _ | addI _ | ldF _ =>
    exact ExecOutcome.next ⟨rfl, rfl, rfl, rfl, rfl⟩

/-- The four cases of a running block's step: no fetch, no instruction, an instruction that fails, an
instruction that completes. -/
theorem step_cases (s : State) (h : s.status = .running) :
    (¬ s.pc.toNat + 1 < memSize ∧ step s = .next (s.fail (.fetchOutOfRange s.pc))) ∨
    (s.pc.toNat + 1 < memSize ∧
      ((decodeWord (s.byteAt s.pc.toNat ++ s.byteAt (s.pc.toNat + 1)) = none ∧
        step s = .next (s.fail (.decodeFailure (s.byteAt s.pc.toNat) (s.byteAt (s.pc.toNat + 1))))) ∨
       ∃ i, decodeWord (s.byteAt s.pc.toNat ++ s.byteAt (s.pc.toNat + 1)) = some i ∧
        ((∃ f, exec i s.timerBefore = .next (s.timerBefore.fail f) ∧ step s = .next (s.fail f)) ∨
         ∃ t, exec i s.timerBefore = .next t ∧ SameControl s.timerBefore t ∧ t.status = .running ∧
          step s = .next t.timerAfter.nextInput))) := by
  have hb : s.timerBefore.status = .running := by
    rcases State.timerBefore_cases s with e | e <;> rw [e] <;> simp [h]
  rcases State.fetch_cases s with ⟨hp, hf⟩ | ⟨hp, hf⟩
  · refine .inr ⟨hp, ?_⟩
    cases hd : decodeWord (s.byteAt s.pc.toNat ++ s.byteAt (s.pc.toNat + 1)) with
    | none => exact .inl ⟨rfl, by simp [step, h, hf, hd]⟩
    | some i =>
      refine .inr ⟨i, rfl, ?_⟩
      rcases exec_outcome i s.timerBefore with ⟨f, e⟩ | ⟨t, e, hc⟩
      · exact .inl ⟨f, e, by simp [step, h, hf, hd, e, State.commit]⟩
      · have ht : t.status = .running := hc.status.trans hb
        exact .inr ⟨t, e, hc, ht, by simp [step, h, hf, hd, e, State.commit, ht]⟩
  · exact .inl ⟨hp, by simp [step, h, hf]⟩

end Sys2Proof.Machine
end

