-- ==== Sys2Proof/Laws/Frame.lean ====
section
/-! SUPPORT. The frame and the effect of each way an instruction ends: a register result, a flagged result, a
jump or skip, stored bytes, loaded registers, a drawn sprite; and the stack's two operations. -/

namespace Sys2Proof.Machine

/-! ### The program counter and the frames of register results -/

/-- An advance by `n` is `PcPlus n`. -/
theorem pcPlus_of_pc (s t : State) (n : Word) (h : t.pc = s.pc + n) : PcPlus n.toNat s t := by
  intro hb; rw [h, BitVec.toNat_add]; omega

theorem Frame.mono {w w' : Part → Prop} {s t : State} (h : Frame w s t) (hw : ∀ p, w p → w' p) :
    Frame w' s t :=
  ⟨fun r hr => h.regs r fun e => hr (hw _ e), fun hn => h.index fun e => hn (hw _ e),
   fun hn => h.stack fun e => hn (hw _ e), fun hn => h.delay fun e => hn (hw _ e),
   fun hn => h.sound fun e => hn (hw _ e), fun hn => h.display fun e => hn (hw _ e),
   fun a hr => h.memory a fun e => hr (hw _ e), h.epoch, h.status, h.params, h.inputs, h.draw⟩

theorem frame_setPc (s : State) (target : Word) : Frame (fun _ => False) s (s.setPc target) := by
  constructor <;> (intros; simp)

theorem frame_setReg (s : State) (x : Reg) (b : Byte) (n : Word) :
    Frame (· = .reg x) s ((s.setReg x b).advance n) := by
  constructor <;> first | (intros; simp; done) | skip
  intro r hr
  have : r ≠ x := fun e => hr (by rw [e])
  simp [State.reg_setReg_ne _ _ _ _ this]

theorem frame_resultAndFlag (s : State) (x : Reg) (b : Byte) (f : Bool) :
    Frame (fun p => p = .reg x ∨ p = .reg VF) s (s.resultAndFlag x b f) := by
  unfold State.resultAndFlag
  constructor <;> first | (intros; simp; done) | skip
  intro r hr
  have h1 : r ≠ x := fun e => hr (by simp [e])
  have h2 : r ≠ VF := fun e => hr (by simp [e])
  simp [State.reg_setReg_ne _ _ _ _ h1, State.reg_setFlag_ne _ _ _ h2]

/-! ### Flags -/

theorem b2u_toNat (c : Bool) : (b2u c).toNat = if c then 1 else 0 := by cases c <;> rfl

theorem resultAndFlag_VF (s : State) (x : Reg) (b : Byte) (f : Bool) :
    (s.resultAndFlag x b f).reg VF = b2u f := by simp [State.resultAndFlag]

theorem resultAndFlag_reg (s : State) (x : Reg) (b : Byte) (f : Bool) (h : x ≠ VF) :
    (s.resultAndFlag x b f).reg x = b := by
  simp [State.resultAndFlag, State.reg_setFlag_ne _ _ _ h]

/-! ### The stack -/

/-- A push, in both cases. -/
theorem State.push_cases (s : State) (v : Word) :
    (∃ h : s.sp.val < 16,
      s.push v = .ok (s.setStack ⟨s.sp.val + 1, by omega⟩ (s.stack.set s.sp.val v))) ∨
    (s.sp.val = 16 ∧ s.push v = .error (.stackOverflow s.pc)) := by
  unfold State.push
  by_cases h : s.sp.val < 16
  · exact .inl ⟨h, dif_pos h⟩
  · exact .inr ⟨by omega, dif_neg h⟩

/-- A pop, in both cases. -/
theorem State.pop_cases (s : State) :
    (∃ h : 0 < s.sp.val,
      s.pop = .ok (s.setStack ⟨s.sp.val - 1, by omega⟩ s.stack, s.stack[s.sp.val - 1]'(by omega))) ∨
    (s.sp.val = 0 ∧ s.pop = .error (.stackUnderflow s.pc)) := by
  unfold State.pop
  by_cases h : 0 < s.sp.val
  · exact .inl ⟨h, dif_pos h⟩
  · exact .inr ⟨by omega, dif_neg h⟩

/-! ### The optional increment of I -/

theorem State.bumpI_cases (s : State) (x : Reg) :
    s.bumpI x = s ∨ (s.params.loadStoreIncI = true ∧ ∃ a, s.bumpI x = s.setI a) := by
  unfold State.bumpI; split
  · next h => exact .inr ⟨h, _, rfl⟩
  · exact .inl rfl

theorem State.bumpI_I_toNat (s : State) (x : Reg) : (s.bumpI x).I.toNat =
    (if s.params.loadStoreIncI = true then (s.I.toNat + x.val + 1) % 2 ^ 16 else s.I.toNat) := by
  unfold State.bumpI; split
  · simp; omega
  · rfl

theorem frame_bumpI (w : Part → Prop) (s t : State) (x : Reg) (n : Word) (h : Frame w s t)
    (hI : s.params.loadStoreIncI = true → w .I) : Frame w s ((t.bumpI x).advance n) := by
  rcases State.bumpI_cases t x with e | ⟨hi, a, e⟩ <;> rw [e]
  · exact ⟨h.regs, h.index, h.stack, h.delay, h.sound, h.display, h.memory, h.epoch, h.status, h.params,
      h.inputs, h.draw⟩
  · rw [h.params] at hi
    exact ⟨h.regs, fun hn => absurd (hI hi) hn, h.stack, h.delay, h.sound, h.display, h.memory, h.epoch,
      h.status, h.params, h.inputs, h.draw⟩

/-! ### Stored bytes -/

/-- The `k`-th of the bytes written at `a`, read back. -/
theorem State.byteAt_writeAll (s : State) (a : Nat) (vs : List Byte) (hm : s.memOk)
    (ha : a + vs.length ≤ memSize) (k : Nat) (hk : k < vs.length) :
    (s.setMem (Memory.writeAll s.params.font s.mem a vs)).byteAt (a + k) = vs[k] := by
  rw [State.byteAt_setMem, Memory.read_writeAll _ _ _ _ _ ha hm]
  simp [hk]

/-- Bytes written at `a` leave everything else. -/
theorem frame_writeAll (s : State) (a : Nat) (vs : List Byte) (n : Word) (hm : s.memOk)
    (ha : a + vs.length ≤ memSize) :
    Frame (fun p => ∃ k < vs.length, p = .byte (a + k)) s
      ((s.setMem (Memory.writeAll s.params.font s.mem a vs)).advance n) := by
  constructor <;> first | (intros; simp; done) | skip
  intro q hq
  have e : ¬ (a ≤ q ∧ q - a < vs.length) := fun h => hq ⟨q - a, h.2, by rw [Nat.add_sub_cancel' h.1]⟩
  simp only [State.advance_byteAt, State.byteAt_setMem]
  rw [Memory.read_writeAll _ _ _ _ _ ha hm, dif_neg e]; rfl

/-! ### The end states of the instructions that access memory -/

theorem execLdB_of_writable (x : Reg) (s : State) (h : s.writable (s.effAddr 0) 3) :
    execLdB x s = .next ((s.setMem
      (Memory.writeAll s.params.font s.mem (s.effAddr 0) (bcdDigits (s.reg x)))).advance 2) := by
  unfold execLdB
  rw [State.storeBytes_of_writable _ _ _ (by simpa [bcdDigits] using h)]
  rfl

theorem execStoreRegs_of_writable (x : Reg) (s : State) (h : s.writable (s.effAddr 0) (x.val + 1)) :
    execStoreRegs x s = .next (((s.setMem
      (Memory.writeAll s.params.font s.mem (s.effAddr 0) (s.regBlock x))).bumpI x).advance 2) := by
  unfold execStoreRegs
  rw [State.storeBytes_of_writable _ _ _ (by simpa [State.regBlock_length] using h)]
  rfl

theorem execLoadRegs_of_readable (x : Reg) (s : State) (h : readable (s.effAddr 0) (x.val + 1)) :
    execLoadRegs x s = .next (((s.setRegsFrom 0
      ((List.range (x.val + 1)).map fun k => s.byteAt (s.effAddr 0 + k))).bumpI x).advance 2) := by
  unfold execLoadRegs
  rw [State.loadBytes_of_readable _ _ _ h]
  rfl

/-- The grid and the flag of a sprite of `n` rows at `a`. -/
def State.drawn (s : State) (x y : Reg) (n : Nat) : Canvas :=
  composite s.disp (s.reg x) (s.reg y) ((List.range n).map fun k => s.byteAt (s.effAddr 0 + k))

theorem execDrw_of_readable (x y : Reg) (n : Fin 16) (s : State) (h : readable (s.effAddr 0) n.val) :
    execDrw x y n s = .next (((s.setDisp (s.drawn x y n.val).1).setFlag (s.drawn x y n.val).2).advance 2) := by
  unfold execDrw
  rw [State.loadBytes_of_readable _ _ _ h]
  rfl

theorem frame_draw (s : State) (d : Display) (f : Bool) (n : Word) :
    Frame (fun p => p = .disp ∨ p = .reg VF) s (((s.setDisp d).setFlag f).advance n) := by
  constructor <;> first | (intros; simp_all; done) | skip
  intro r hr
  have h2 : r ≠ VF := fun e => hr (by simp [e])
  simp [State.reg_setFlag_ne _ _ _ h2]

/-- A composite inverts exactly the lit pixels, and its flag says whether a lit pixel was on. -/
theorem composite_spec (s : State) (vx vy : Byte) (a n : Nat) (hn : n < 16) :
    (∀ r c, Flips (s.spriteLit a n vx vy r c) (s.pixelAt r c)
      (pix (composite s.disp vx vy ((List.range n).map fun k => s.byteAt (a + k))).1 r c)) ∧
    ((composite s.disp vx vy ((List.range n).map fun k => s.byteAt (a + k))).2 = true ↔
      ∃ r c, s.spriteLit a n vx vy r c ∧ s.pixelAt r c = true) := by
  obtain ⟨h1, h2⟩ := plotRows_spec (vx.toNat % 64) ((List.range n).map fun k => s.byteAt (a + k))
    (vy.toNat % 32) (s.disp, false) (by simp; omega)
  have fc : ∀ (c : Fin 64) j, c = Fin.ofNat 64 (vx.toNat % 64 + j) ↔ c.val = (vx.toNat % 64 + j) % 64 :=
    fun c j => ⟨fun e => by rw [e]; simp, fun e => Fin.ext (by simpa using e)⟩
  have fr : ∀ (r : Fin 32) j, r = Fin.ofNat 32 (vy.toNat % 32 + j) ↔ r.val = (vy.toNat % 32 + j) % 32 :=
    fun c j => ⟨fun e => by rw [e]; simp, fun e => Fin.ext (by simpa using e)⟩
  refine ⟨fun r c => (h1 r c).of_iff ?_, ?_⟩
  · unfold State.spriteLit
    constructor
    · rintro ⟨k, hk, j, hj, hr, hc, hb⟩
      exact ⟨k, by simpa using hk, j, hj, (fr _ _).mp hr, (fc _ _).mp hc, by simpa using hb⟩
    · rintro ⟨k, hk, j, hj, hr, hc, hb⟩
      exact ⟨k, by simpa using hk, j, hj, (fr _ _).mpr hr, (fc _ _).mpr hc, by simpa using hb⟩
  · show (plotRows _ _ _ _).2 = true ↔ _
    rw [h2]
    constructor
    · rintro (h | ⟨k, hk, j, hj, hb, hp⟩)
      · simp at h
      · exact ⟨_, _, ⟨k, by simpa using hk, j, hj, by simp, by simp, by simpa using hb⟩, hp⟩
    · rintro ⟨r, c, ⟨k, hk, j, hj, hr, hc, hb⟩, hp⟩
      refine .inr ⟨k, by simpa using hk, j, hj, by simpa using hb, ?_⟩
      rw [← (fr _ _).mpr hr, ← (fc _ _).mpr hc]; exact hp

end Sys2Proof.Machine
end

