-- ==== Sys2Proof/Laws/Inputs.lean ====
section
/-! SUPPORT. The operations over memory, registers and I do not look at the inputs: each commutes with a change
of the queue. -/

namespace Sys2Proof.Machine

/-- A computation's answer with the queue replaced. -/
def withQueue (l : List Config.StepInput) : Except Failure State → Except Failure State
  | .ok u => .ok { u with inputs := l }
  | .error f => .error f

theorem State.orFail_queue (s t : State) (l : List Config.StepInput) (r : Except Failure State)
    (h : s.orFail r = .next t) :
    ({ s with inputs := l } : State).orFail (withQueue l r) = .next { t with inputs := l } := by
  cases r <;> (injection h with h; subst h; rfl)

theorem State.setRegsFrom_queue (l : List Config.StepInput) (bs : List Byte) : ∀ (s : State) (k : Nat),
    ({ s with inputs := l } : State).setRegsFrom k bs = { s.setRegsFrom k bs with inputs := l } := by
  induction bs with
  | nil => intros; rfl
  | cons b bs ih =>
    intro s k
    unfold State.setRegsFrom
    split
    · exact ih (s.setReg ⟨k, by assumption⟩ b) (k + 1)
    · exact ih s (k + 1)

theorem State.loadBytes_queue (s : State) (l : List Config.StepInput) : ∀ (n a : Nat),
    ({ s with inputs := l } : State).loadBytes a n = s.loadBytes a n := by
  intro n
  induction n with
  | zero => intro a; rfl
  | succ n ih => intro a; unfold State.loadBytes; rw [ih]; rfl

theorem State.memWrite_queue (s : State) (l : List Config.StepInput) (a : Nat) (v : Byte) :
    ({ s with inputs := l } : State).memWrite a v = withQueue l (s.memWrite a v) := by
  unfold State.memWrite
  split
  · rfl
  · simp only; split <;> rfl

theorem State.storeBytes_queue (l : List Config.StepInput) (vs : List Byte) : ∀ (s : State) (a : Nat),
    ({ s with inputs := l } : State).storeBytes a vs = withQueue l (s.storeBytes a vs) := by
  induction vs with
  | nil => intros; rfl
  | cons v vs ih =>
    intro s a
    unfold State.storeBytes
    rw [State.memWrite_queue]
    cases s.memWrite a v with
    | error f => rfl
    | ok u => exact ih u _

theorem State.bumpI_queue (s : State) (l : List Config.StepInput) (x : Reg) :
    ({ s with inputs := l } : State).bumpI x = { s.bumpI x with inputs := l } := by
  unfold State.bumpI; split <;> rfl

end Sys2Proof.Machine
end

