-- ==== Sys2Proof/Laws/PerInstr.lean ====
section
/-! SUPPORT. Per instruction: its word carries the fixed bits of its row in spec/opcode_table.json, whatever its
operands. -/

namespace Sys2Proof.Laws.TableRow

/-- The (match, mask) of an instruction's row in spec/opcode_table.json. -/
def matchMask : Instr → Word × Word
  | .cls => (0x00E0, 0xFFFF)
  | .ret => (0x00EE, 0xFFFF)
  | .sys _ => (0x0000, 0xF000)
  | .jp _ => (0x1000, 0xF000)
  | .call _ => (0x2000, 0xF000)
  | .seByte _ _ => (0x3000, 0xF000)
  | .sneByte _ _ => (0x4000, 0xF000)
  | .seReg _ _ => (0x5000, 0xF00F)
  | .ldByte _ _ => (0x6000, 0xF000)
  | .addByte _ _ => (0x7000, 0xF000)
  | .ldReg _ _ => (0x8000, 0xF00F)
  | .orReg _ _ => (0x8001, 0xF00F)
  | .andReg _ _ => (0x8002, 0xF00F)
  | .xorReg _ _ => (0x8003, 0xF00F)
  | .addReg _ _ => (0x8004, 0xF00F)
  | .sub _ _ => (0x8005, 0xF00F)
  | .shr _ _ => (0x8006, 0xF00F)
  | .subn _ _ => (0x8007, 0xF00F)
  | .shl _ _ => (0x800E, 0xF00F)
  | .sneReg _ _ => (0x9000, 0xF00F)
  | .ldI _ => (0xA000, 0xF000)
  | .jpV0 _ => (0xB000, 0xF000)
  | .rnd _ _ => (0xC000, 0xF000)
  | .drw _ _ _ => (0xD000, 0xF000)
  | .skp _ => (0xE09E, 0xF0FF)
  | .sknp _ => (0xE0A1, 0xF0FF)
  | .ldVxDT _ => (0xF007, 0xF0FF)
  | .ldVxK _ => (0xF00A, 0xF0FF)
  | .ldDTVx _ => (0xF015, 0xF0FF)
  | .ldSTVx _ => (0xF018, 0xF0FF)
  | .addI _ => (0xF01E, 0xF0FF)
  | .ldF _ => (0xF029, 0xF0FF)
  | .ldB _ => (0xF033, 0xF0FF)
  | .storeRegs _ => (0xF055, 0xF0FF)
  | .loadRegs _ => (0xF065, 0xF0FF)

/-- The word of `i` under its row's mask is its row's match. -/
def Statement (i : Instr) : Prop := encodeWord i &&& (matchMask i).2 = (matchMask i).1

theorem nibble_mask (op : BitVec 4) : op &&& 0xF#4 = op := by revert op; decide

/-- A word `Pnnn` under the mask of its opcode. -/
theorem mask_wordAddr (op : BitVec 4) (nnn : Addr12) : wordAddr op nnn &&& 0xF000 = wordAddr op 0 := by
  show (op ++ nnn) &&& (0xF#4 ++ 0x000#12) = op ++ 0x000#12
  rw [BitVec.and_append, nibble_mask]
  simp

/-- A word `Pxkk` under the mask of its opcode. -/
theorem mask_wordByte (op : BitVec 4) (x : Reg) (kk : Byte) : wordByte op x kk &&& 0xF000 = wordByte op 0 0 := by
  show (op ++ (BitVec.ofFin x : BitVec 4) ++ kk) &&& (0xF#4 ++ 0x0#4 ++ 0x00#8) = op ++ 0x0#4 ++ 0x00#8
  rw [BitVec.and_append, BitVec.and_append, nibble_mask]
  simp

/-- A word `Pxkk` with a fixed byte, under the mask of its opcode and its byte. -/
theorem mask_wordByte_fixed (op : BitVec 4) (x : Reg) (kk : Byte) :
    wordByte op x kk &&& 0xF0FF = wordByte op 0 kk := by
  show (op ++ (BitVec.ofFin x : BitVec 4) ++ kk) &&& (0xF#4 ++ 0x0#4 ++ BitVec.allOnes 8) = op ++ 0x0#4 ++ kk
  rw [BitVec.and_append, BitVec.and_append, nibble_mask, BitVec.and_allOnes]
  simp

/-- A word `Pxyn` with a fixed nibble, under the mask of its opcode and its nibble. -/
theorem mask_wordRegs_fixed (op : BitVec 4) (x y : Reg) (n : BitVec 4) :
    wordRegs op x y n &&& 0xF00F = wordRegs op 0 0 n := by
  show (op ++ (BitVec.ofFin x : BitVec 4) ++ (BitVec.ofFin y : BitVec 4) ++ n) &&&
    (0xF#4 ++ 0x0#4 ++ 0x0#4 ++ 0xF#4) = op ++ 0x0#4 ++ 0x0#4 ++ n
  rw [BitVec.and_append, BitVec.and_append, BitVec.and_append, nibble_mask, nibble_mask]
  simp

/-- A word `Pxyn` under the mask of its opcode. -/
theorem mask_wordRegs (op : BitVec 4) (x y : Reg) (n : BitVec 4) :
    wordRegs op x y n &&& 0xF000 = wordRegs op 0 0 0 := by
  show (op ++ (BitVec.ofFin x : BitVec 4) ++ (BitVec.ofFin y : BitVec 4) ++ n) &&&
    (0xF#4 ++ 0x0#4 ++ 0x0#4 ++ 0x0#4) = op ++ 0x0#4 ++ 0x0#4 ++ 0x0#4
  rw [BitVec.and_append, BitVec.and_append, BitVec.and_append, nibble_mask]
  simp

theorem cls : Statement .cls := rfl
theorem ret : Statement .ret := rfl
theorem sys (nnn : Addr12) : Statement (.sys nnn) := mask_wordAddr _ _
theorem jp (nnn : Addr12) : Statement (.jp nnn) := mask_wordAddr _ _
theorem call (nnn : Addr12) : Statement (.call nnn) := mask_wordAddr _ _
theorem seByte (x : Reg) (kk : Byte) : Statement (.seByte x kk) := mask_wordByte _ _ _
theorem sneByte (x : Reg) (kk : Byte) : Statement (.sneByte x kk) := mask_wordByte _ _ _
theorem seReg (x y : Reg) : Statement (.seReg x y) := mask_wordRegs_fixed _ _ _ _
theorem ldByte (x : Reg) (kk : Byte) : Statement (.ldByte x kk) := mask_wordByte _ _ _
theorem addByte (x : Reg) (kk : Byte) : Statement (.addByte x kk) := mask_wordByte _ _ _
theorem ldReg (x y : Reg) : Statement (.ldReg x y) := mask_wordRegs_fixed _ _ _ _
theorem orReg (x y : Reg) : Statement (.orReg x y) := mask_wordRegs_fixed _ _ _ _
theorem andReg (x y : Reg) : Statement (.andReg x y) := mask_wordRegs_fixed _ _ _ _
theorem xorReg (x y : Reg) : Statement (.xorReg x y) := mask_wordRegs_fixed _ _ _ _
theorem addReg (x y : Reg) : Statement (.addReg x y) := mask_wordRegs_fixed _ _ _ _
theorem sub (x y : Reg) : Statement (.sub x y) := mask_wordRegs_fixed _ _ _ _
theorem shr (x y : Reg) : Statement (.shr x y) := mask_wordRegs_fixed _ _ _ _
theorem subn (x y : Reg) : Statement (.subn x y) := mask_wordRegs_fixed _ _ _ _
theorem shl (x y : Reg) : Statement (.shl x y) := mask_wordRegs_fixed _ _ _ _
theorem sneReg (x y : Reg) : Statement (.sneReg x y) := mask_wordRegs_fixed _ _ _ _
theorem ldI (nnn : Addr12) : Statement (.ldI nnn) := mask_wordAddr _ _
theorem jpV0 (nnn : Addr12) : Statement (.jpV0 nnn) := mask_wordAddr _ _
theorem rnd (x : Reg) (kk : Byte) : Statement (.rnd x kk) := mask_wordByte _ _ _
theorem drw (x y : Reg) (n : Fin 16) : Statement (.drw x y n) := mask_wordRegs _ _ _ _
theorem skp (x : Reg) : Statement (.skp x) := mask_wordByte_fixed _ _ _
theorem sknp (x : Reg) : Statement (.sknp x) := mask_wordByte_fixed _ _ _
theorem ldVxDT (x : Reg) : Statement (.ldVxDT x) := mask_wordByte_fixed _ _ _
theorem ldVxK (x : Reg) : Statement (.ldVxK x) := mask_wordByte_fixed _ _ _
theorem ldDTVx (x : Reg) : Statement (.ldDTVx x) := mask_wordByte_fixed _ _ _
theorem ldSTVx (x : Reg) : Statement (.ldSTVx x) := mask_wordByte_fixed _ _ _
theorem addI (x : Reg) : Statement (.addI x) := mask_wordByte_fixed _ _ _
theorem ldF (x : Reg) : Statement (.ldF x) := mask_wordByte_fixed _ _ _
theorem ldB (x : Reg) : Statement (.ldB x) := mask_wordByte_fixed _ _ _
theorem storeRegs (x : Reg) : Statement (.storeRegs x) := mask_wordByte_fixed _ _ _
theorem loadRegs (x : Reg) : Statement (.loadRegs x) := mask_wordByte_fixed _ _ _

end Sys2Proof.Laws.TableRow
end

