-- ==== Sys2Proof/Tests/Slice0.lean ====
section
/-! SUPPORT. Tests of the model. The expected results are those of spec/: the vectors T1 to T104 and the
examples E1 to E12 of 95_test_vectors, the patterns of 30_encoding R76. Then, for each statement with
hypotheses, a concrete input that meets them. -/

namespace Sys2Proof.Tests

open Sys2Proof.Machine

/-! ### Ill-formed terms (30_encoding R74) -/

theorem test_wellFormed_refuses_sys_0E0 : (Instr.sys 0x0E0).wellFormed = false := by decide
theorem test_wellFormed_refuses_sys_0EE : (Instr.sys 0x0EE).wellFormed = false := by decide
theorem test_wellFormed_accepts_sys_0E1 : (Instr.sys 0x0E1).wellFormed = true := by decide

/-! ### Decoding: a word of every row of 30_encoding R76, written out from its pattern -/

/-- Patterns `00E0`, `00EE`, `0nnn`, `1nnn`, `2nnn`, `Annn`, `Bnnn`. -/
theorem test_decode_addresses :
    decodeWord 0x00E0 = some .cls ∧ decodeWord 0x00EE = some .ret ∧ decodeWord 0x0123 = some (.sys 0x123) ∧
    decodeWord 0x1FFE = some (.jp 0xFFE) ∧ decodeWord 0x2ABC = some (.call 0xABC) ∧
    decodeWord 0xA123 = some (.ldI 0x123) ∧ decodeWord 0xB00F = some (.jpV0 0x00F) := by decide

/-- Patterns `3xkk`, `4xkk`, `6xkk`, `7xkk`, `Cxkk`. -/
theorem test_decode_bytes :
    decodeWord 0x3142 = some (.seByte 1 0x42) ∧ decodeWord 0x4C81 = some (.sneByte 0xC 0x81) ∧
    decodeWord 0x6005 = some (.ldByte 0 0x05) ∧ decodeWord 0x7F03 = some (.addByte 0xF 0x03) ∧
    decodeWord 0xC10F = some (.rnd 1 0x0F) := by decide

/-- Patterns `5xy0`, `9xy0`, `Dxyn`. -/
theorem test_decode_registers :
    decodeWord 0x5120 = some (.seReg 1 2) ∧ decodeWord 0x9FE0 = some (.sneReg 0xF 0xE) ∧
    decodeWord 0xDAB5 = some (.drw 0xA 0xB 5) := by decide

/-- Patterns `8xy0` to `8xy7` and `8xyE`. -/
theorem test_decode_group8 :
    decodeWord 0x8120 = some (.ldReg 1 2) ∧ decodeWord 0x8121 = some (.orReg 1 2) ∧
    decodeWord 0x8122 = some (.andReg 1 2) ∧ decodeWord 0x8123 = some (.xorReg 1 2) ∧
    decodeWord 0x8124 = some (.addReg 1 2) ∧ decodeWord 0x8125 = some (.sub 1 2) ∧
    decodeWord 0x8126 = some (.shr 1 2) ∧ decodeWord 0x8127 = some (.subn 1 2) ∧
    decodeWord 0x812E = some (.shl 1 2) := by decide

/-- Patterns `Ex9E`, `ExA1` and those of group F. -/
theorem test_decode_groupEF :
    decodeWord 0xE39E = some (.skp 3) ∧ decodeWord 0xE3A1 = some (.sknp 3) ∧
    decodeWord 0xF307 = some (.ldVxDT 3) ∧ decodeWord 0xF30A = some (.ldVxK 3) ∧
    decodeWord 0xF315 = some (.ldDTVx 3) ∧ decodeWord 0xF318 = some (.ldSTVx 3) ∧
    decodeWord 0xF31E = some (.addI 3) ∧ decodeWord 0xF329 = some (.ldF 3) ∧
    decodeWord 0xF333 = some (.ldB 3) ∧ decodeWord 0xF355 = some (.storeRegs 3) ∧
    decodeWord 0xF365 = some (.loadRegs 3) := by decide

/-- Words of R77, one of each class, and T21, T22, T54, T55, T75, T91, E8. -/
theorem test_decode_illegal :
    decodeWord 0x5121 = none ∧ decodeWord 0x912F = none ∧ decodeWord 0x8128 = none ∧
    decodeWord 0x812F = none ∧ decodeWord 0xE19F = none ∧ decodeWord 0xF100 = none ∧
    decodeWord 0xFFFF = none := by decide

/-- R56: the byte at the lower address is the high byte; R77: the reject carries the two raw bytes; R79. -/
theorem test_decode_bytes_in_order :
    decode [0x60, 0x05, 0x99] = .ok (.ldByte 0 0x05, [0x99]) ∧
    decode [0x51, 0x21] = .error (.illegalWord 0x51 0x21) ∧ decode [0x60] = .error .truncated := by
  exact ⟨rfl, rfl, rfl⟩

/-- The opcode table's numbering: `6005` is the number 0x6005 of 16 bits. -/
theorem test_decodeTableWord : decodeTableWord 16 0x6005 = some (.ldByte 0 0x05) := by decide

/-! ### One step -/

/-- No tick, random byte 0, no key (95_test_vectors, conventions). -/
def quiet : Config.StepInput where
  tick := false
  rnd := 0
  held := Vector.replicate 16 false
  lastKey := none

/-- The start state of the vectors: reset, epoch true, the inputs `q`, changed by `f`, the word at pc. -/
def start (w : Word) (q : Config.StepInput) (f : State → State) : State :=
  (f { State.reset with epoch := true, inputs := [q] }).storeWordAtPc w

/-- The state after one step. -/
def after (w : Word) (f : State → State) (q : Config.StepInput := quiet) : State :=
  match step (start w q f) with
  | .next t => t
  | _ => State.reset

/-- Memory with `vs` at 0x300. -/
def put (vs : List Byte) (s : State) : State := s.setMem (Memory.writeAll s.params.font s.mem 0x300 vs)

/-- Key 5 held, key 0xB reported, random byte 0xA7, no tick. -/
def busy : Config.StepInput := { quiet with rnd := 0xA7, held := quiet.held.set 5 true, lastKey := some 0xB }

/-- A tick. -/
def tock : Config.StepInput := { quiet with tick := true }

/-- T1. -/
theorem test_sys : (after 0x0123 id).pc = 0x202 ∧ (after 0x0123 id).status = .running := by decide
/-- T3. -/
theorem test_ret : (after 0x00EE fun s => s.setStack 1 (s.stack.set 0 0x204)).pc = 0x206 ∧
    (after 0x00EE fun s => s.setStack 1 (s.stack.set 0 0x204)).sp = 0 := by decide
/-- T4. -/
theorem test_ret_underflow : (after 0x00EE id).status = .failed (.stackUnderflow 0x200) := by decide
/-- T7. -/
theorem test_jp : (after 0x1301 id).pc = 0x301 := by decide
/-- T9. -/
theorem test_call : (after 0x2300 fun s => s.setStack 15 s.stack).pc = 0x300 ∧
    (after 0x2300 fun s => s.setStack 15 s.stack).sp = 16 ∧
    (after 0x2300 fun s => s.setStack 15 s.stack).stack[15] = 0x200 := by decide
/-- T10. -/
theorem test_call_overflow : (after 0x2300 fun s => s.setStack 16 s.stack).status =
    .failed (.stackOverflow 0x200) := by decide
/-- T12. -/
theorem test_jpV0 : (after 0xBFFF fun s => s.setReg 0 1).pc = 0x1000 := by decide
/-- T13, T14. -/
theorem test_seByte : (after 0x3342 fun s => s.setReg 3 0x42).pc = 0x204 ∧
    (after 0x3342 fun s => s.setReg 3 0x41).pc = 0x202 := by decide
/-- T15, T16. -/
theorem test_sneByte : (after 0x4342 fun s => s.setReg 3 0x42).pc = 0x202 ∧
    (after 0x4300 fun s => s.setReg 3 0x42).pc = 0x204 := by decide
/-- T17, T18. -/
theorem test_seReg : (after 0x5110 fun s => s.setReg 1 7).pc = 0x204 ∧
    (after 0x5120 fun s => (s.setReg 1 7).setReg 2 8).pc = 0x202 := by decide
/-- T19, T20. -/
theorem test_sneReg : (after 0x9120 fun s => (s.setReg 1 7).setReg 2 8).pc = 0x204 ∧
    (after 0x9110 fun s => s.setReg 1 7).pc = 0x202 := by decide
/-- T24. -/
theorem test_fetch_at_FFF : (after 0x0000 fun s => s.setPc 0xFFF).status =
    .failed (.fetchOutOfRange 0xFFF) := by decide
/-- T25. -/
theorem test_ldByte_at_FFE : (after 0x6001 fun s => s.setPc 0xFFE).pc = 0x1000 ∧
    (after 0x6001 fun s => s.setPc 0xFFE).reg 0 = 1 := by decide
/-- T28. -/
theorem test_ldReg : (after 0x8120 fun s => s.setReg 2 0x33).reg 1 = 0x33 := by decide
/-- T29. -/
theorem test_addByte_wraps : (after 0x70FF fun s => (s.setReg 0 1).setReg VF 0x55).reg 0 = 0 ∧
    (after 0x70FF fun s => (s.setReg 0 1).setReg VF 0x55).reg VF = 0x55 := by decide
/-- T31. -/
theorem test_orReg : (after 0x8121 fun s => (s.setReg 1 0x0F).setReg 2 0xF0).reg 1 = 0xFF := by decide
/-- T32. -/
theorem test_andReg : (after 0x8122 fun s => ((s.setReg 1 0x3C).setReg 2 0x0F).setReg VF 9).reg 1 = 0x0C ∧
    (after 0x8122 fun s => ((s.setReg 1 0x3C).setReg 2 0x0F).setReg VF 9).reg VF = 9 := by decide
/-- 42_alu R125, its example. -/
theorem test_xorReg : (after 0x8123 fun s => (s.setReg 1 0x3C).setReg 2 0x0F).reg 1 = 0x33 := by decide
/-- T34, T35. -/
theorem test_addReg : (after 0x8124 fun s => (s.setReg 1 0xFF).setReg 2 1).reg 1 = 0 ∧
    (after 0x8124 fun s => (s.setReg 1 0xFF).setReg 2 1).reg VF = 1 ∧
    (after 0x8124 fun s => (s.setReg 1 0xFE).setReg 2 1).reg VF = 0 := by decide
/-- T36, T37. -/
theorem test_addReg_VF : (after 0x8F24 fun s => (s.setReg VF 0xF0).setReg 2 0x20).reg VF = 1 ∧
    (after 0x81F4 fun s => (s.setReg 1 0x10).setReg VF 1).reg 1 = 0x11 ∧
    (after 0x81F4 fun s => (s.setReg 1 0x10).setReg VF 1).reg VF = 0 := by decide
/-- T39. -/
theorem test_sub_borrow : (after 0x8125 fun s => (s.setReg 1 3).setReg 2 5).reg 1 = 0xFE ∧
    (after 0x8125 fun s => (s.setReg 1 3).setReg 2 5).reg VF = 0 := by decide
/-- T40, T41. -/
theorem test_sub_equal : (after 0x8125 fun s => (s.setReg 1 4).setReg 2 4).reg VF = 0 ∧
    (after 0x8F25 fun s => (s.setReg VF 9).setReg 2 3).reg VF = 1 := by decide
/-- T42, T43. -/
theorem test_subn : (after 0x8127 fun s => (s.setReg 1 3).setReg 2 5).reg 1 = 2 ∧
    (after 0x8127 fun s => (s.setReg 1 3).setReg 2 5).reg VF = 1 ∧
    (after 0x8127 fun s => (s.setReg 1 5).setReg 2 3).reg 1 = 0xFE := by decide
/-- T45, T47. -/
theorem test_shr : (after 0x8106 fun s => s.setReg 1 5).reg 1 = 2 ∧
    (after 0x8106 fun s => s.setReg 1 5).reg VF = 1 ∧
    (after 0x8126 fun s => s.setReg 2 3).reg 1 = 0 := by decide
/-- T46. -/
theorem test_shr_VY :
    (after 0x8126 fun s => { s.setReg 2 3 with params := { s.params with shiftSource := .vy } }).reg 1 = 1 := by
  decide
/-- T49, T51. -/
theorem test_shl : (after 0x810E fun s => s.setReg 1 0x81).reg 1 = 2 ∧
    (after 0x810E fun s => s.setReg 1 0x81).reg VF = 1 ∧
    (after 0x8F0E fun s => s.setReg VF 0x40).reg VF = 0 := by decide
/-- T52. -/
theorem test_rnd : (after 0xC10F id busy).reg 1 = 0x07 := by decide
/-- T56. -/
theorem test_ldI : (after 0xA123 id).I = 0x123 := by decide
/-- T57. -/
theorem test_addI : (after 0xF11E fun s => ((s.setI 0xFFF).setReg 1 1).setReg VF 7).I = 0x1000 ∧
    (after 0xF11E fun s => ((s.setI 0xFFF).setReg 1 1).setReg VF 7).reg VF = 7 := by decide
/-- T58. -/
theorem test_addI_wraps : (after 0xF11E fun s => (s.setI 0xFFFF).setReg 1 2).I = 1 := by decide
/-- T59, T60. -/
theorem test_ldF : (after 0xF129 fun s => s.setReg 1 0x0A).I = 0x32 ∧
    (after 0xF129 fun s => (s.setReg 1 0x10).setI 0x300).I = 0x300 := by decide
/-- T61. -/
theorem test_ldB : (after 0xF133 fun s => (s.setReg 1 0xFE).setI 0x300).byteAt 0x300 = 2 ∧
    (after 0xF133 fun s => (s.setReg 1 0xFE).setI 0x300).byteAt 0x301 = 5 ∧
    (after 0xF133 fun s => (s.setReg 1 0xFE).setI 0x300).byteAt 0x302 = 4 := by decide
/-- T64, T65. -/
theorem test_ldB_fails : (after 0xF133 fun s => (s.setReg 1 0x7B).setI 0xFFE).status =
      .failed (.memWriteOutOfRange 0x1000) ∧
    (after 0xF133 fun s => (s.setReg 1 0x7B).setI 0xFFE).byteAt 0xFFE = 0 ∧
    (after 0xF133 fun s => (s.setReg 1 0x7B).setI 0x1FF).status = .failed (.reservedWrite 0x1FF) := by decide
/-- T67, T68. -/
theorem test_storeRegs : (after 0xF255 fun s => (((s.setReg 0 1).setReg 1 2).setReg 2 3).setI 0x300).byteAt 0x302 = 3 ∧
    (after 0xF255 fun s => { s.setI 0x300 with params := { s.params with loadStoreIncI := true } }).I = 0x303 := by
  decide
/-- T69, T70. -/
theorem test_storeRegs_at_the_end : (after 0xF055 fun s => (s.setReg 0 0xAA).setI 0xFFF).byteAt 0xFFF = 0xAA ∧
    (after 0xF155 fun s => (s.setReg 0 0xAA).setI 0xFFF).status = .failed (.memWriteOutOfRange 0x1000) := by
  decide
/-- T71, T73. -/
theorem test_loadRegs : (after 0xF265 fun s => (put [1, 2, 3] s).setI 0x300).reg 2 = 3 ∧
    (after 0xF265 fun s => (put [1, 2, 3] s).setI 0x300).reg 3 = 0 ∧ (after 0xF465 id).reg 4 = 0xF0 := by decide
/-- T74. -/
theorem test_loadRegs_fails : (after 0xF165 fun s => s.setI 0xFFF).status =
    .failed (.memReadOutOfRange 0x1000) := by decide
/-- T76. -/
theorem test_cls : (after 0x00E0 fun s => s.setDisp (invertPixel s.disp 31 63)).pixelAt 31 63 = false := by decide
/-- T79, T80: both wraps. -/
theorem test_drw_wraps :
    (after 0xD011 fun s => ((put [0xFF] s).setReg 0 0x3C).setI 0x300).pixelAt 0 3 = true ∧
    (after 0xD011 fun s => ((put [0xFF] s).setReg 0 0x3C).setI 0x300).pixelAt 0 4 = false ∧
    (after 0xD012 fun s => ((put [0x80, 0x80] s).setReg 1 0x1F).setI 0x300).pixelAt 0 0 = true := by decide
/-- T83, T84: a partial erase; VF as a coordinate. -/
theorem test_drw_collision :
    (after 0xD011 fun s => ((put [0xC0] s).setDisp (invertPixel s.disp 0 0)).setI 0x300).reg VF = 1 ∧
    (after 0xD011 fun s => ((put [0xC0] s).setDisp (invertPixel s.disp 0 0)).setI 0x300).pixelAt 0 1 = true ∧
    (after 0xDF01 fun s => ((put [0x80] s).setReg VF 2).setI 0x300).pixelAt 0 2 = true ∧
    (after 0xDF01 fun s => ((put [0x80] s).setReg VF 2).setI 0x300).reg VF = 0 := by decide
/-- T86, T90. -/
theorem test_skp : (after 0xE19E (fun s => s.setReg 1 5) busy).pc = 0x204 ∧
    (after 0xE19E (fun s => s.setReg 1 0x10) busy).status = .failed (.keyOutOfRange 0x10) := by decide
/-- T88, T89. -/
theorem test_sknp : (after 0xE1A1 (fun s => s.setReg 1 5) busy).pc = 0x202 ∧
    (after 0xE1A1 (fun s => s.setReg 1 4) busy).pc = 0x204 := by decide
/-- T92, T93. -/
theorem test_ldVxK : (after 0xF30A id).pc = 0x200 ∧ (after 0xF30A id busy).reg 3 = 0x0B ∧
    (after 0xF30A id busy).pc = 0x202 := by decide
/-- T94. -/
theorem test_ldVxK_tick : (after 0xF30A (fun s => s.setDT 5) tock).DT = 4 := by decide
/-- T96, T97. -/
theorem test_ldVxDT : (after 0xF207 (fun s => s.setDT 5) tock).reg 2 = 4 ∧
    (after 0xF207 (fun s => { s.setDT 5 with params := { s.params with timerPhase := .after } }) tock).reg 2 = 5 ∧
    (after 0xF207 (fun s => { s.setDT 5 with params := { s.params with timerPhase := .after } }) tock).DT = 4 := by
  decide
/-- T98, T99. -/
theorem test_ldDTVx : (after 0xF215 (fun s => s.setReg 2 0x3C) tock).DT = 0x3C ∧
    (after 0xF215 (fun s => { s.setReg 2 0x3C with params := { s.params with timerPhase := .after } }) tock).DT =
      0x3B := by decide
/-- T100. -/
theorem test_ldSTVx : (after 0xF218 fun s => s.setReg 2 0x0A).ST = 0x0A ∧
    (after 0xF218 fun s => s.setReg 2 0x0A).soundActive = true := by decide
/-- T101. -/
theorem test_first_step : (after 0x0000 (fun s => { s.setDT 3 with epoch := false }) tock).DT = 3 ∧
    (after 0x0000 (fun s => { s.setDT 3 with epoch := false }) tock).epoch = true := by decide
/-- T102. -/
theorem test_tick : (after 0x0000 (fun s => s.setDT 3) tock).DT = 2 ∧
    (after 0x0000 (fun s => s.setDT 3) tock).ST = 0 := by decide
/-- T104, E8. -/
theorem test_failing_step : (after 0xFFFF (fun s => s.setDT 3) tock).DT = 3 ∧
    (after 0xFFFF (fun s => s.setDT 3) tock).status = .failed (.decodeFailure 0xFF 0xFF) := by decide
/-- 60_exceptions R210, the codes of the first and the last kind. -/
theorem test_codes : (Failure.decodeFailure 0 0).code = 1 ∧ (Failure.keyOutOfRange 0).code = 8 := by decide

/-! ### Witnesses: for each statement with hypotheses, inputs that meet them -/

/-- `i` completes in the running state `s`. -/
def Completes (i : Instr) (s : State) : Prop :=
  s.status = .running ∧ ∃ t, exec i s = .next t ∧ t.status = .running

/-- `i` fails with `f` in the running state `s`. -/
def Fails (i : Instr) (s : State) (f : Failure) : Prop :=
  s.status = .running ∧ ∃ t, exec i s = .next t ∧ t.status = .failed f

/-- The next step of the running state `s` fetches and decodes `i`. -/
def Fetches (s : State) (i : Instr) : Prop :=
  s.status = .running ∧ s.pc.toNat + 1 ≤ 0xFFF ∧
    decodeWord (s.byteAt s.pc.toNat ++ s.byteAt (s.pc.toNat + 1)) = some i

/-- A running state with I at `a`. -/
def at_ (a : Word) : State := State.reset.setI a

/-- P_TIMER_PHASE = AFTER. -/
def late (s : State) : State := { s with params := { s.params with timerPhase := .after } }

/-- P_PROTECT_RESERVED = false. -/
def unprotected (s : State) : State := { s with params := { s.params with protectReserved := false } }

/-- The stack pointer at `n`. -/
def depth (n : Fin 17) : State := State.reset.setStack n State.reset.stack

/-- The longest image that fits, one byte more, and the same at 0x600. -/
theorem test_witness_ResetLoadsTheImage :
    (loadAddress .conventional).toNat + (List.replicate 0xE00 (0 : Byte)).length ≤ 0x1000 ∧
    0x1000 < (loadAddress .conventional).toNat + (List.replicate 0xE01 (0 : Byte)).length ∧
    (loadAddress .alternate).toNat + (List.replicate 0xA00 (0 : Byte)).length ≤ 0x1000 ∧
    0x1000 < (loadAddress .alternate).toNat + (List.replicate 0xA01 (0 : Byte)).length := by
  simp only [List.length_replicate]; decide

theorem test_witness_DecodeOfEncode :
    (Instr.sys 0xFFF).wellFormed = true ∧ (Instr.drw 15 15 15).wellFormed = true := by decide

theorem test_witness_EncodeOfDecode : decode [0x0E, 0xEE, 0x01] = .ok (.sys 0xEEE, [0x01]) := rfl

theorem test_witness_StepRunsTheDecodedInstruction :
    (Fetches (start 0x6005 tock id) (.ldByte 0 5) ∧
      Completes (.ldByte 0 5) (start 0x6005 tock id).timerTick) ∧
    (Fetches (late (start 0x6005 tock id)) (.ldByte 0 5) ∧
      Completes (.ldByte 0 5) (late (start 0x6005 tock id))) ∧
    Fetches (start 0x00EE tock id) .ret ∧
      Fails .ret (start 0x00EE tock id).timerBefore (.stackUnderflow 0x200) ∧
    Fetches (start 0x6005 tock fun s => s.setPc 0xFFE) (.ldByte 0 5) :=
  ⟨⟨⟨rfl, by decide, rfl⟩, rfl, _, rfl, rfl⟩, ⟨⟨rfl, by decide, rfl⟩, rfl, _, rfl, rfl⟩,
    ⟨rfl, by decide, rfl⟩, ⟨rfl, _, rfl, rfl⟩, ⟨rfl, by decide, rfl⟩⟩

theorem test_witness_FetchBeyondMemoryFails :
    (State.reset.setPc 0xFFF).status = .running ∧ 0xFFF < (State.reset.setPc 0xFFF).pc.toNat + 1 := by decide

theorem test_witness_UndefinedWordFails :
    (start 0x5121 tock id).status = .running ∧ (start 0x5121 tock id).pc.toNat + 1 ≤ 0xFFF ∧
    decodeWord ((start 0x5121 tock id).byteAt (start 0x5121 tock id).pc.toNat ++
      (start 0x5121 tock id).byteAt ((start 0x5121 tock id).pc.toNat + 1)) = none ∧
    (0x0FFF : Word).toNat / 4096 = 0 := by decide

theorem test_witness_FailingStepChangesOnlyStatus : (start 0xFFFF tock id).status = .running ∧
    ∃ t, step (start 0xFFFF tock id) = .next t ∧ t.status = .failed (.decodeFailure 0xFF 0xFF) :=
  ⟨rfl, _, rfl, rfl⟩

theorem test_witness_FailedBlockTakesNoStep :
    (State.reset.fail (.stackUnderflow 0x200)).status = .failed (.stackUnderflow 0x200) := rfl

theorem test_witness_RunningBlockAnswersEveryStep : State.reset.status = .running := rfl

/-- Every instruction that can fail, at the first value that does. -/
theorem test_witness_FailureKindsOfInstructions :
    Fails (.call 0) (depth 16) (.stackOverflow 0x200) ∧ Fails .ret (depth 0) (.stackUnderflow 0x200) ∧
    Fails (.skp 1) (State.reset.setReg 1 0x10) (.keyOutOfRange 0x10) ∧
    Fails (.sknp 1) (State.reset.setReg 1 0xFF) (.keyOutOfRange 0xFF) ∧
    Fails (.drw 0 0 1) (at_ 0x1000) (.memReadOutOfRange 0x1000) ∧
    Fails (.drw 0 0 15) (at_ 0xFFFF) (.memReadOutOfRange 0xFFFF) ∧
    Fails (.loadRegs 1) (at_ 0xFFF) (.memReadOutOfRange 0x1000) ∧
    Fails (.ldB 0) (at_ 0xFFE) (.memWriteOutOfRange 0x1000) ∧
    Fails (.ldB 0) (at_ 0x1FF) (.reservedWrite 0x1FF) ∧
    Fails (.storeRegs 0) (at_ 0x1000) (.memWriteOutOfRange 0x1000) ∧
    Fails (.storeRegs 0) (at_ 0x1FF) (.reservedWrite 0x1FF) := by
  refine ⟨?_, ?_, ?_, ?_, ?_, ?_, ?_, ?_, ?_, ?_, ?_⟩ <;> exact ⟨rfl, _, rfl, rfl⟩

theorem test_witness_TimersOfACompletedStep : Fetches (start 0x6005 tock id) (.ldByte 0 5) ∧
    (∃ t, step (start 0x6005 tock id) = .next t ∧ t.status = .running) ∧
    (∀ x, Instr.ldByte 0 5 ≠ .ldDTVx x) ∧ (∀ x, Instr.ldByte 0 5 ≠ .ldSTVx x) :=
  ⟨⟨rfl, by decide, rfl⟩, ⟨_, rfl, rfl⟩, by simp, by simp⟩

theorem test_witness_TimerInstructionsMeetTheTimerPhase :
    Fetches (start 0xF207 tock id) (.ldVxDT 2) ∧ Fetches (late (start 0xF207 tock id)) (.ldVxDT 2) ∧
    Fetches (start 0xF215 tock id) (.ldDTVx 2) ∧ Fetches (late (start 0xF215 tock id)) (.ldDTVx 2) ∧
    Fetches (start 0xF218 tock id) (.ldSTVx 2) ∧ Fetches (late (start 0xF218 tock id)) (.ldSTVx 2) := by
  refine ⟨?_, ?_, ?_, ?_, ?_, ?_⟩ <;> exact ⟨rfl, by decide, rfl⟩

/-- A snapshot lined up, and none. -/
theorem test_witness_ParametersFixedAndOneSnapshotUsed :
    (start 0x6005 tock id).inputs ≠ [] ∧
    (∃ t, step (start 0x6005 tock id) = .next t ∧ t.status = .running) ∧
    State.reset.inputs = [] ∧ ∃ t, step State.reset = .next t ∧ t.status = .running :=
  ⟨by decide, ⟨_, rfl, rfl⟩, rfl, ⟨_, rfl, rfl⟩⟩

/-- A store at the last byte of memory. -/
theorem test_witness_StepKeepsMemoryCanonical :
    (start 0xF055 tock fun s => (s.setReg 0 0xAA).setI 0xFFF).memOk ∧
    ∃ t, step (start 0xF055 tock fun s => (s.setReg 0 0xAA).setI 0xFFF) = .next t ∧ t.status = .running :=
  ⟨rfl, _, rfl, rfl⟩

theorem test_witness_ResetMemoryIsCanonical : ∃ t, State.resetWith defaultParams [0x60, 0x05] = .next t :=
  ⟨_, rfl⟩

theorem test_witness_ProtectedAreaIsNeverWritten :
    (start 0xF055 tock fun s => s.setI 0x200).memOk ∧
    (start 0xF055 tock fun s => s.setI 0x200).params.protectReserved = true ∧
    ∃ t, step (start 0xF055 tock fun s => s.setI 0x200) = .next t ∧ t.status = .running :=
  ⟨rfl, rfl, _, rfl, rfl⟩

theorem test_witness_InstructionsWriteOnlyTheirParts : (at_ 0xFFD).memOk ∧ Completes (.ldB 1) (at_ 0xFFD) :=
  ⟨rfl, rfl, _, rfl, rfl⟩

/-- One completing instruction for each clause, pc at the top of its range. -/
theorem test_witness_SuccessorTable :
    let s := (depth 16).setPc 0xFFFF
    Completes (.jp 0xFFF) s ∧ Completes (.call 0) ((depth 15).setPc 0xFFFF) ∧ Completes (.jpV0 0xFFF) s ∧
    Completes .ret s ∧ Completes (.seByte 0 0) s ∧ Completes (.sneByte 0 0) s ∧ Completes (.seReg 0 1) s ∧
    Completes (.sneReg 0 1) s ∧ Completes (.skp 0) (s.present quiet) ∧ Completes (.sknp 0) (s.present quiet) ∧
    Completes (.ldVxK 0) (s.present quiet) ∧ Completes (.addByte 0 1) s := by
  refine ⟨?_, ?_, ?_, ?_, ?_, ?_, ?_, ?_, ?_, ?_, ?_, ?_⟩ <;> exact ⟨rfl, _, rfl, rfl⟩

/-- Two snapshots that differ in all the executed instruction does not read. -/
theorem test_witness_UnreadInputsHaveNoEffect :
    let a := { busy with tick := true }
    Completes (.rnd 1 0xF) { State.reset with inputs := [a] } ∧ a.rnd = ({ quiet with rnd := 0xA7 } : Config.StepInput).rnd ∧
    Completes (.skp 1) { State.reset with inputs := [a] } ∧
      a.held = ({ quiet with held := busy.held } : Config.StepInput).held ∧
    Completes (.ldVxK 1) { State.reset with inputs := [a] } ∧
      a.lastKey = ({ quiet with lastKey := some 0xB } : Config.StepInput).lastKey := by
  refine ⟨⟨rfl, _, rfl, rfl⟩, rfl, ⟨rfl, _, rfl, rfl⟩, rfl, ⟨rfl, _, rfl, rfl⟩, rfl⟩

/-- E6, at the last free entry of the stack. -/
theorem test_witness_CallThenReturnRoundTrip :
    let s := (start 0x2300 tock fun s => (put [0x00, 0xEE] s).setStack 15 s.stack)
    Fetches s (.call 0x300) ∧ s.sp.val < 16 ∧ (0x300 : Addr12).toNat + 1 ≤ 0xFFF ∧
    decodeWord (s.byteAt (0x300 : Addr12).toNat ++ s.byteAt ((0x300 : Addr12).toNat + 1)) = some .ret :=
  ⟨⟨rfl, by decide, rfl⟩, by decide, by decide, rfl⟩

theorem test_witness_StoredCodeIsFetched :
    let s := start 0xF155 tock fun s => s.setI 0xFFE
    s.memOk ∧ Fetches s (.storeRegs 1) ∧ s.writable (s.effAddr 0) ((1 : Reg).val + 1) ∧
    (1 : Reg).val = (0 : Reg).val + 1 ∧ (1 : Reg) ≤ 1 :=
  ⟨rfl, ⟨rfl, by decide, rfl⟩, ⟨by decide, fun _ => by decide⟩, rfl, by decide⟩

theorem test_witness_WaitingForAKeyHoldsTheBlock :
    Fetches (start 0xF30A tock id) (.ldVxK 3) ∧ (start 0xF30A tock id).input.lastKey = none :=
  ⟨⟨rfl, by decide, rfl⟩, rfl⟩

theorem test_witness_CallSavesItsOwnAddress : (depth 15).sp.val < 16 ∧ (depth 16).sp.val = 16 := by decide

theorem test_witness_ReturnResumesAfterTheCall : (depth 16).sp.val = (15 : Fin 16).val + 1 ∧
    (depth 1).sp.val = (0 : Fin 16).val + 1 ∧ (depth 0).sp.val = 0 := by decide

/-- `PcPlus n` says something up to pc = 2^16 - n - 1. -/
theorem test_witness_PcPlus : (State.reset.setPc 0xFFFD).pc.toNat + 2 < 2 ^ 16 ∧
    (State.reset.setPc 0xFFFB).pc.toNat + 4 < 2 ^ 16 := by decide

theorem test_witness_SkipsAdvanceByFourOrTwo : State.reset.reg 1 = (0 : Byte) ∧ State.reset.reg 1 ≠ (1 : Byte) ∧
    State.reset.reg 1 = State.reset.reg 2 ∧
    (State.reset.setReg 1 7).reg 1 ≠ (State.reset.setReg 1 7).reg 2 := by decide

theorem test_witness_AddSetsTheCarry : (14 : Reg) ≠ VF := by decide

theorem test_witness_SubtractionsSetTheStrictFlag : (0 : Reg) ≠ VF := by decide

theorem test_witness_ShiftsSetTheBitShiftedOut :
    (State.reset.params.shiftSource = .vx → (0 : Byte) = State.reset.reg 1) ∧
    (State.reset.params.shiftSource = .vy → (0 : Byte) = State.reset.reg 2) ∧
    State.reset.params.shiftSource = .vx ∧ (14 : Reg) ≠ VF := by decide

/-- Three bytes up to the end of memory, from the first free byte, and into the reserved area unprotected. -/
theorem test_witness_DecimalDigitsAreStored :
    ((at_ 0xFFD).memOk ∧ (at_ 0xFFD).writable ((at_ 0xFFD).effAddr 0) 3) ∧
    ((at_ 0x200).memOk ∧ (at_ 0x200).writable ((at_ 0x200).effAddr 0) 3) ∧
    ((unprotected (at_ 0)).memOk ∧ (unprotected (at_ 0)).writable ((unprotected (at_ 0)).effAddr 0) 3) :=
  ⟨⟨rfl, by decide, fun _ => by decide⟩, ⟨rfl, by decide, fun _ => by decide⟩,
    ⟨rfl, by decide, fun h => by simp [unprotected] at h⟩⟩

theorem test_witness_RegisterBlockIsStored :
    ((at_ 0xFFF).memOk ∧ (at_ 0xFFF).writable ((at_ 0xFFF).effAddr 0) ((0 : Reg).val + 1)) ∧
    ((at_ 0xFF0).memOk ∧ (at_ 0xFF0).writable ((at_ 0xFF0).effAddr 0) ((15 : Reg).val + 1)) ∧
    ((at_ 0x200).memOk ∧ (at_ 0x200).writable ((at_ 0x200).effAddr 0) ((15 : Reg).val + 1)) :=
  ⟨⟨rfl, by decide, fun _ => by decide⟩, ⟨rfl, by decide, fun _ => by decide⟩,
    ⟨rfl, by decide, fun _ => by decide⟩⟩

theorem test_witness_RegisterBlockIsLoaded : readable ((at_ 0xFFF).effAddr 0) ((0 : Reg).val + 1) ∧
    readable ((at_ 0xFF0).effAddr 0) ((15 : Reg).val + 1) := ⟨.inr (by decide), .inr (by decide)⟩

/-- Each clause at the value where it starts. -/
theorem test_witness_ForbiddenWritesFail :
    ((at_ 0x1FF).params.protectReserved = true ∧ (at_ 0x1FF).effAddr 0 ≤ 0x1FF) ∧
    (¬ ((at_ 0xFFE).params.protectReserved = true ∧ (at_ 0xFFE).effAddr 0 ≤ 0x1FF) ∧
      0x1000 < (at_ 0xFFE).effAddr 0 + 3) ∧
    (¬ ((at_ 0x1000).params.protectReserved = true ∧ (at_ 0x1000).effAddr 0 ≤ 0x1FF) ∧
      0x1000 < (at_ 0x1000).effAddr 0 + ((0 : Reg).val + 1)) := by decide

theorem test_witness_ReadsBeyondMemoryFail :
    0x1000 < (at_ 0x1000).effAddr 0 + (1 : Fin 16).val ∧ 0 < (1 : Fin 16).val ∧
    0x1000 < (at_ 0xFF1).effAddr 0 + ((15 : Reg).val + 1) := by decide

/-- No rows anywhere, fifteen rows up to the end of memory. -/
theorem test_witness_DrawInvertsTheSpritesPixels : readable ((at_ 0xFFFF).effAddr 0) (0 : Fin 16).val ∧
    readable ((at_ 0xFF1).effAddr 0) (15 : Fin 16).val := ⟨.inl rfl, .inr (by decide)⟩

theorem test_witness_CollisionFlagReportsAnErasedPixel : readable ((at_ 0x1001).effAddr 0) (0 : Fin 16).val ∧
    readable ((at_ 0xFFF).effAddr 0) (1 : Fin 16).val := ⟨.inl rfl, .inr (by decide)⟩

/-- A step that turns the corner pixel on, and one that turns it off. -/
theorem test_witness_DisplayChangesOnlyThroughClsAndDrw :
    (∃ t, step (start 0xD011 tock fun s => (put [0x80] s).setI 0x300) = .next t ∧
      ∃ r c, (start 0xD011 tock fun s => (put [0x80] s).setI 0x300).pixelAt r c = false ∧
        t.pixelAt r c = true) ∧
    ∃ t, step (start 0x00E0 tock fun s => s.setDisp (invertPixel s.disp 31 63)) = .next t ∧
      ∃ r c, t.pixelAt r c ≠ (start 0x00E0 tock fun s => s.setDisp (invertPixel s.disp 31 63)).pixelAt r c :=
  ⟨⟨_, rfl, 0, 0, by decide, by decide⟩, ⟨_, rfl, 31, 63, by decide⟩⟩

theorem test_witness_TimersAreSeenOnlyByTheirReader : Completes (.ldByte 0 5) State.reset ∧
    (∀ x, Instr.ldByte 0 5 ≠ .ldVxDT x) ∧ Completes (.ldVxDT 0) State.reset :=
  ⟨⟨rfl, _, rfl, rfl⟩, by simp, ⟨rfl, _, rfl, rfl⟩⟩

theorem test_witness_SysIsANoOp : (0x0DF : Addr12) ≠ 0x0E0 ∧ (0x0DF : Addr12) ≠ 0x0EE ∧
    (0x0E1 : Addr12) ≠ 0x0E0 ∧ (0x0E1 : Addr12) ≠ 0x0EE := by decide

theorem test_witness_DoubleDrawRestoresTheDisplay : (0 : Reg) ≠ VF ∧ (14 : Reg) ≠ VF ∧
    readable ((at_ 0xFF1).effAddr 0) (15 : Fin 16).val := ⟨by decide, by decide, .inr (by decide)⟩

theorem test_witness_KeySkips : ((State.reset.setReg 1 0xF).reg 1).toNat = (15 : Key).val ∧
    (State.reset.reg 1).toNat = (0 : Key).val ∧ 0xF < ((State.reset.setReg 1 0x10).reg 1).toNat := by decide

theorem test_witness_WaitForKeyStoresOrHolds :
    (State.reset.present busy).input.lastKey = some 0xB ∧ (State.reset.present quiet).input.lastKey = none := by
  decide

end Sys2Proof.Tests
end

section
/-! SUPPORT. Every way each instruction that can fail ends: the state it completes in, or the failure it takes,
each with its condition. -/

namespace Sys2Proof.Machine

variable (s : State)

/-- RET pops, or there is nothing to pop (41_control_flow R101). -/
theorem execRet_cases :
    (∃ h : 0 < s.sp.val, execRet s = .next
      ((s.setStack ⟨s.sp.val - 1, by omega⟩ s.stack).setPc (s.stack[s.sp.val - 1]'(by omega) + 2))) ∨
    (s.sp.val = 0 ∧ execRet s = .next (s.fail (.stackUnderflow s.pc))) := by
  unfold execRet
  rcases s.pop_cases with ⟨h, e⟩ | ⟨h, e⟩ <;> rw [e]
  · exact .inl ⟨h, rfl⟩
  · exact .inr ⟨h, rfl⟩

/-- CALL pushes its own pc, or there is no room (41_control_flow R103). -/
theorem execCall_cases (nnn : Addr12) :
    (∃ h : s.sp.val < 16, execCall nnn s = .next
      ((s.setStack ⟨s.sp.val + 1, by omega⟩ (s.stack.set s.sp.val s.pc)).setPc (zext16 nnn))) ∨
    (s.sp.val = 16 ∧ execCall nnn s = .next (s.fail (.stackOverflow s.pc))) := by
  unfold execCall
  rcases s.push_cases s.pc with ⟨h, e⟩ | ⟨h, e⟩ <;> rw [e]
  · exact .inl ⟨h, rfl⟩
  · exact .inr ⟨h, rfl⟩

/-- A byte names a key, or exceeds the last one (45_timers_input R190). -/
theorem keyOf_cases (v : Byte) :
    (∃ k : Key, v.toNat = k.val ∧ keyOf v = some k) ∨ (0xF < v.toNat ∧ keyOf v = none) := by
  unfold keyOf
  by_cases h : v.toNat < 16
  · exact .inl ⟨⟨v.toNat, h⟩, rfl, dif_pos h⟩
  · exact .inr ⟨by omega, dif_neg h⟩

/-- SKP skips by a key's state, or V[x] names no key (45_timers_input R190). -/
theorem execSkp_cases (x : Reg) :
    (∃ k : Key, (s.reg x).toNat = k.val ∧ execSkp x s = .next (s.skipIf (s.keyHeld k))) ∨
    (0xF < (s.reg x).toNat ∧ execSkp x s = .next (s.fail (.keyOutOfRange (s.reg x)))) := by
  unfold execSkp
  rcases keyOf_cases (s.reg x) with ⟨k, h, e⟩ | ⟨h, e⟩ <;> rw [e]
  · exact .inl ⟨k, h, rfl⟩
  · exact .inr ⟨h, rfl⟩

/-- SKNP skips by a key's state, or V[x] names no key (45_timers_input R191). -/
theorem execSknp_cases (x : Reg) :
    (∃ k : Key, (s.reg x).toNat = k.val ∧ execSknp x s = .next (s.skipIf (!s.keyHeld k))) ∨
    (0xF < (s.reg x).toNat ∧ execSknp x s = .next (s.fail (.keyOutOfRange (s.reg x)))) := by
  unfold execSknp
  rcases keyOf_cases (s.reg x) with ⟨k, h, e⟩ | ⟨h, e⟩ <;> rw [e]
  · exact .inl ⟨k, h, rfl⟩
  · exact .inr ⟨h, rfl⟩

/-- DRW draws the bytes at I, or one of them lies above memory (44_display R172). -/
theorem execDrw_cases (x y : Reg) (n : Fin 16) :
    (readable (s.effAddr 0) n.val ∧ execDrw x y n s =
      .next (((s.setDisp (s.drawn x y n.val).1).setFlag (s.drawn x y n.val).2).advance 2)) ∨
    (¬ readable (s.effAddr 0) n.val ∧
      execDrw x y n s = .next (s.fail (.memReadOutOfRange (max (s.effAddr 0) memSize)))) := by
  by_cases h : readable (s.effAddr 0) n.val
  · exact .inl ⟨h, execDrw_of_readable x y n s h⟩
  · refine .inr ⟨h, ?_⟩
    unfold execDrw
    rw [s.loadBytes_of_not_readable _ _ h]
    rfl

/-- LD Vx, [I] loads the bytes at I, or one of them lies above memory (43_index_memory R155). -/
theorem execLoadRegs_cases (x : Reg) :
    (readable (s.effAddr 0) (x.val + 1) ∧ execLoadRegs x s = .next (((s.setRegsFrom 0
      ((List.range (x.val + 1)).map fun k => s.byteAt (s.effAddr 0 + k))).bumpI x).advance 2)) ∨
    (¬ readable (s.effAddr 0) (x.val + 1) ∧
      execLoadRegs x s = .next (s.fail (.memReadOutOfRange (max (s.effAddr 0) memSize)))) := by
  by_cases h : readable (s.effAddr 0) (x.val + 1)
  · exact .inl ⟨h, execLoadRegs_of_readable x s h⟩
  · refine .inr ⟨h, ?_⟩
    unfold execLoadRegs
    rw [s.loadBytes_of_not_readable _ _ h]
    rfl

/-- LD B, Vx stores three digits at I, or one of the writes is not allowed (43_index_memory R153). -/
theorem execLdB_cases (x : Reg) :
    (s.writable (s.effAddr 0) 3 ∧ execLdB x s = .next ((s.setMem
      (Memory.writeAll s.params.font s.mem (s.effAddr 0) (bcdDigits (s.reg x)))).advance 2)) ∨
    (¬ s.writable (s.effAddr 0) 3 ∧ execLdB x s = .next (s.fail (s.writeFailure (s.effAddr 0)))) := by
  by_cases h : s.writable (s.effAddr 0) 3
  · exact .inl ⟨h, execLdB_of_writable x s h⟩
  · refine .inr ⟨h, ?_⟩
    unfold execLdB
    rw [State.storeBytes_of_not_writable (bcdDigits (s.reg x)) (by simp [bcdDigits]) s _ h]
    rfl

theorem State.regBlock_ne_nil (x : Reg) : s.regBlock x ≠ [] :=
  List.ne_nil_of_length_eq_add_one (s.regBlock_length x)

/-- LD [I], Vx stores V0 to Vx at I, or one of the writes is not allowed (43_index_memory R154). -/
theorem execStoreRegs_cases (x : Reg) :
    (s.writable (s.effAddr 0) (x.val + 1) ∧ execStoreRegs x s = .next (((s.setMem
      (Memory.writeAll s.params.font s.mem (s.effAddr 0) (s.regBlock x))).bumpI x).advance 2)) ∨
    (¬ s.writable (s.effAddr 0) (x.val + 1) ∧
      execStoreRegs x s = .next (s.fail (s.writeFailure (s.effAddr 0)))) := by
  by_cases h : s.writable (s.effAddr 0) (x.val + 1)
  · exact .inl ⟨h, execStoreRegs_of_writable x s h⟩
  · refine .inr ⟨h, ?_⟩
    unfold execStoreRegs
    rw [State.storeBytes_of_not_writable _ (s.regBlock_ne_nil x) s _ (by rwa [s.regBlock_length])]
    rfl

end Sys2Proof.Machine
end

section
/-! SUPPORT. The step's answer and the inputs it uses up (10_state R31, R41, R42). -/

namespace Sys2Proof.Machine

variable (s : State)

@[simp] theorem State.nextInput_inputs : s.nextInput.inputs = s.inputs.tail := by
  unfold State.nextInput
  split
  · next h => simp [h]
  · next h => simp [h]

theorem State.nextInput_draw_of_empty (h : s.inputs = []) : s.nextInput.draw = s.draw + 1 := by
  simp [State.nextInput, h]

theorem State.nextInput_draw_of_queued (h : s.inputs ≠ []) : s.nextInput.draw = s.draw := by
  obtain ⟨i, rest, e⟩ := List.exists_cons_of_ne_nil h
  simp [State.nextInput, e]

/-- A block that takes a step was running. -/
theorem running_of_step {s t : State} (h : step s = .next t) : s.status = .running := by
  cases hs : s.status with
  | running => rfl
  | failed f => simp [step, hs] at h

/-- A step takes a failure, or ends in a state with the parameters and the inputs of the old one and then uses
one snapshot up. -/
theorem step_fails_or_uses_input {s t : State} (h : step s = .next t) :
    (∃ f, t = s.fail f) ∨
    ∃ u : State, t = u.nextInput ∧ u.params = s.params ∧ u.inputs = s.inputs ∧ u.draw = s.draw := by
  rcases step_cases s (running_of_step h) with
    ⟨_, e⟩ | ⟨_, ⟨_, e⟩ | ⟨i, _, ⟨f, _, e⟩ | ⟨u, _, hc, _, e⟩⟩⟩ <;> cases e.symm.trans h
  · exact .inl ⟨_, rfl⟩
  · exact .inl ⟨_, rfl⟩
  · exact .inl ⟨f, rfl⟩
  · exact .inr ⟨u.timerAfter, rfl, by simp [hc.params], by simp [hc.inputs], by simp [hc.draw]⟩

/-- Settles O12: each of the four cases of a running block's step is a next state. -/
theorem runningBlockAnswersEveryStep : Obligations.RunningBlockAnswersEveryStep := by
  intro s h
  rcases step_cases s h with ⟨_, e⟩ | ⟨_, ⟨_, e⟩ | ⟨_, _, ⟨_, _, e⟩ | ⟨_, _, _, _, e⟩⟩⟩ <;> exact ⟨_, e⟩

/-- Settles O16: a failing step keeps everything but `status`, a completed one ends with `State.nextInput`. -/
theorem parametersFixedAndOneSnapshotUsed : Obligations.ParametersFixedAndOneSnapshotUsed := by
  intro s t h
  rcases step_fails_or_uses_input h with ⟨f, rfl⟩ | ⟨u, rfl, hp, hi, hd⟩
  · exact ⟨rfl, fun hr => by simp at hr⟩
  · refine ⟨by simp [hp], fun _ => ⟨by simp [hi], fun he => ?_, fun hne => ?_⟩⟩
    · rw [u.nextInput_draw_of_empty (hi.trans he), hd]
    · rw [u.nextInput_draw_of_queued (hi ▸ hne), hd]

end Sys2Proof.Machine
end

section
/-! SUPPORT. The frame of every instruction (10_state R22, R23, R27 to R30; 20_memory R58; 44_display R178). -/

namespace Sys2Proof.Machine

variable (s : State)

/-! ### The frames of single writes -/

/-- A frame does not look at pc. -/
theorem Frame.of_advance {w : Part → Prop} {s t : State} {n : Word} (h : Frame w s (t.advance n)) :
    Frame w s t :=
  ⟨h.regs, h.index, h.stack, h.delay, h.sound, h.display, h.memory, h.epoch, h.status, h.params, h.inputs,
    h.draw⟩

theorem frame_setI (a n : Word) : Frame (· = .I) s ((s.setI a).advance n) := by
  constructor <;> simp

theorem frame_setDT (b : Byte) (n : Word) : Frame (· = .DT) s ((s.setDT b).advance n) := by
  constructor <;> simp

theorem frame_setST (b : Byte) (n : Word) : Frame (· = .ST) s ((s.setST b).advance n) := by
  constructor <;> simp

theorem frame_setDisp (d : Display) (n : Word) : Frame (· = .disp) s ((s.setDisp d).advance n) := by
  constructor <;> simp

theorem frame_setStack (p : Fin 17) (k : Vector Word 16) (target : Word) :
    Frame (· = .stack) s ((s.setStack p k).setPc target) := by
  constructor <;> simp

/-- Registers written from V0 on leave everything else. -/
theorem frame_setRegsFrom (bs : List Byte) :
    Frame (fun p => ∃ r : Reg, r.val < bs.length ∧ p = .reg r) s (s.setRegsFrom 0 bs) := by
  have hregs (r : Reg) (hr : ¬ ∃ q : Reg, q.val < bs.length ∧ Part.reg r = .reg q) :
      (s.setRegsFrom 0 bs).reg r = s.reg r := by
    rw [State.reg_setRegsFrom, dif_neg fun h => hr ⟨r, h.2, rfl⟩]
  rw [State.setRegsFrom_eq]
  exact ⟨hregs, fun _ => rfl, fun _ => ⟨rfl, rfl⟩, fun _ => rfl, fun _ => rfl, fun _ _ _ => rfl,
    fun _ _ => rfl, rfl, rfl, rfl, rfl, rfl⟩

/-! ### The frame of every instruction -/

/-- A result that takes a failure or changes at most pc and the parts `w`. -/
def WritesOnly (w : Part → Prop) (s : State) (r : Result) : Prop :=
  (∃ f, r = .next (s.fail f)) ∨ ∃ t, r = .next t ∧ Frame w s t

theorem WritesOnly.next {w : Part → Prop} {s t : State} (h : Frame w s t) : WritesOnly w s (.next t) :=
  .inr ⟨t, rfl, h⟩

theorem WritesOnly.fail {w : Part → Prop} {s : State} (f : Failure) : WritesOnly w s (.next (s.fail f)) :=
  .inl ⟨f, rfl⟩

theorem execLdB_writesOnly (x : Reg) (hm : s.memOk) : WritesOnly (mayWrite (.ldB x) s) s (execLdB x s) := by
  rcases execLdB_cases s x with ⟨⟨hw, _⟩, e⟩ | ⟨_, e⟩ <;> rw [e]
  · exact .next (frame_writeAll s (s.effAddr 0) (bcdDigits (s.reg x)) 2 hm hw)
  · exact .fail _

theorem execStoreRegs_writesOnly (x : Reg) (hm : s.memOk) :
    WritesOnly (mayWrite (.storeRegs x) s) s (execStoreRegs x s) := by
  rcases execStoreRegs_cases s x with ⟨⟨hw, _⟩, e⟩ | ⟨_, e⟩ <;> rw [e]
  · rw [← s.regBlock_length x] at hw
    refine .next (frame_bumpI _ s _ x 2 ((frame_writeAll s _ _ 0 hm hw).of_advance.mono ?_)
      fun hi => .inr ⟨hi, rfl⟩)
    rintro p ⟨k, hk, rfl⟩
    rw [s.regBlock_length] at hk
    exact .inl ⟨k, Nat.le_of_lt_succ hk, rfl⟩
  · exact .fail _

theorem execLoadRegs_writesOnly (x : Reg) :
    WritesOnly (mayWrite (.loadRegs x) s) s (execLoadRegs x s) := by
  rcases execLoadRegs_cases s x with ⟨_, e⟩ | ⟨_, e⟩ <;> rw [e]
  · refine .next (frame_bumpI _ s _ x 2 ((frame_setRegsFrom s _).mono ?_) fun hi => .inr ⟨hi, rfl⟩)
    rintro p ⟨r, hr, rfl⟩
    exact .inl ⟨r, Nat.le_of_lt_succ (by simpa using hr), rfl⟩
  · exact .fail _

/-- Every instruction takes a failure or writes only pc and the parts its rules name. -/
theorem exec_writesOnly (i : Instr) (hm : s.memOk) : WritesOnly (mayWrite i s) s (exec i s) := by
  cases i with
  | cls => exact .next (frame_setDisp s _ 2)
  | ret =>
    show WritesOnly _ s (execRet s)
    rcases execRet_cases s with ⟨_, e⟩ | ⟨_, e⟩ <;> rw [e]
    · exact .next (frame_setStack s _ _ _)
    · exact .fail _
  | call nnn =>
    show WritesOnly _ s (execCall nnn s)
    rcases execCall_cases s nnn with ⟨_, e⟩ | ⟨_, e⟩ <;> rw [e]
    · exact .next (frame_setStack s _ _ _)
    · exact .fail _
  | skp x =>
    show WritesOnly _ s (execSkp x s)
    rcases execSkp_cases s x with ⟨_, _, e⟩ | ⟨_, e⟩ <;> rw [e]
    · exact .next (frame_setPc s _)
    · exact .fail _
  | sknp x =>
    show WritesOnly _ s (execSknp x s)
    rcases execSknp_cases s x with ⟨_, _, e⟩ | ⟨_, e⟩ <;> rw [e]
    · exact .next (frame_setPc s _)
    · exact .fail _
  | drw x y n =>
    show WritesOnly _ s (execDrw x y n s)
    rcases execDrw_cases s x y n with ⟨_, e⟩ | ⟨_, e⟩ <;> rw [e]
    · exact .next (frame_draw s _ _ 2)
    · exact .fail _
  | ldB x => exact execLdB_writesOnly s x hm
  | storeRegs x => exact execStoreRegs_writesOnly s x hm
  | loadRegs x => exact execLoadRegs_writesOnly s x
  | sys _ | jp _ | jpV0 _ | seByte _ _ | sneByte _ _ | seReg _ _ | sneReg _ _ => exact .next (frame_setPc s _)
  | ldByte x _ | addByte x _ | ldReg x _ | orReg x _ | andReg x _ | xorReg x _ | rnd x _ | ldVxDT x
  | ldVxK x => exact .next (frame_setReg s x _ _)
  | addReg x _ | sub x _ | shr x _ | subn x _ | shl x _ => exact .next (frame_resultAndFlag s x _ _)
  | ldI _ | addI _ | ldF _ => exact .next (frame_setI s _ 2)
  | ldDTVx _ => exact .next (frame_setDT s _ 2)
  | ldSTVx _ => exact .next (frame_setST s _ 2)

/-- Settles O20, by the frame of each instruction's end state. -/
theorem instructionsWriteOnlyTheirParts : Obligations.InstructionsWriteOnlyTheirParts := by
  intro i s t hm h
  rcases exec_writesOnly s i hm with ⟨f, e⟩ | ⟨u, e, hf⟩ <;> cases e.symm.trans h
  · exact .inl ⟨f, rfl⟩
  · exact .inr hf

end Sys2Proof.Machine
end

section
/-! SUPPORT. The successor of every instruction that completes (10_state R24). -/

namespace Sys2Proof.Machine

variable (s : State)

@[simp] theorem State.bumpI_pc (x : Reg) : (s.bumpI x).pc = s.pc := by
  rcases s.bumpI_cases x with e | ⟨_, _, e⟩ <;> rw [e]
  rfl

@[simp] theorem State.setRegsFrom_pc (k : Nat) (bs : List Byte) : (s.setRegsFrom k bs).pc = s.pc := by
  rw [State.setRegsFrom_eq]

/-- An advance from any state with the old pc, modulo 2^16. -/
theorem advance_successor {s u : State} (n : Word) (hu : u.pc = s.pc) :
    (u.advance n).pc.toNat = (s.pc.toNat + n.toNat) % 2 ^ 16 := by
  rw [State.advance_pc, hu, BitVec.toNat_add]

theorem skipIf_successor (c : Bool) :
    (s.skipIf c).pc.toNat = (s.pc.toNat + if c = true then 4 else 2) % 2 ^ 16 := by
  cases c <;> exact advance_successor _ rfl

/-- A skip on the negation of a condition. -/
theorem skipIf_not_successor (c : Bool) :
    (s.skipIf (!c)).pc.toNat = (s.pc.toNat + if c = true then 2 else 4) % 2 ^ 16 := by
  cases c <;> exact advance_successor _ rfl

theorem zext16_toNat (nnn : Addr12) : (zext16 nnn).toNat = nnn.toNat :=
  BitVec.toNat_setWidth_of_le (by decide)

theorem byteToWord_toNat (b : Byte) : (byteToWord b).toNat = b.toNat :=
  BitVec.toNat_setWidth_of_le (by decide)

/-- Settles O21: the successor stands in each instruction's end state; an advance or a skip is a sum modulo
2^16. -/
theorem successorTable : Obligations.SuccessorTable := by
  intro i s t _ h ht
  cases i with
  | jp nnn =>
    cases h
    exact zext16_toNat nnn
  | call nnn =>
    rcases execCall_cases s nnn with ⟨_, e⟩ | ⟨_, e⟩ <;> cases e.symm.trans h
    · exact zext16_toNat nnn
    · cases ht
  | jpV0 nnn =>
    cases h
    show (zext16 nnn + byteToWord (s.reg 0)).toNat = _
    rw [BitVec.toNat_add, zext16_toNat, byteToWord_toNat]
  | ret =>
    rcases execRet_cases s with ⟨hsp, e⟩ | ⟨_, e⟩ <;> cases e.symm.trans h
    · exact ⟨⟨s.sp.val - 1, by omega⟩, (Nat.sub_add_cancel hsp).symm, BitVec.toNat_add _ _⟩
    · cases ht
  | seByte x kk =>
    cases h
    simpa using skipIf_successor s (s.reg x == kk)
  | sneByte x kk =>
    cases h
    simpa [bne] using skipIf_not_successor s (s.reg x == kk)
  | seReg x y =>
    cases h
    simpa using skipIf_successor s (s.reg x == s.reg y)
  | sneReg x y =>
    cases h
    simpa [bne] using skipIf_not_successor s (s.reg x == s.reg y)
  | skp x =>
    rcases execSkp_cases s x with ⟨k, hk, e⟩ | ⟨_, e⟩ <;> cases e.symm.trans h
    · exact ⟨k, hk, skipIf_successor s (s.keyHeld k)⟩
    · cases ht
  | sknp x =>
    rcases execSknp_cases s x with ⟨k, hk, e⟩ | ⟨_, e⟩ <;> cases e.symm.trans h
    · exact ⟨k, hk, skipIf_not_successor s (s.keyHeld k)⟩
    · cases ht
  | ldVxK x =>
    cases h
    refine (advance_successor _ (State.setReg_pc s x _)).trans ?_
    cases s.input.lastKey <;> rfl
  | drw x y n =>
    rcases execDrw_cases s x y n with ⟨_, e⟩ | ⟨_, e⟩ <;> cases e.symm.trans h
    · exact advance_successor 2 rfl
    · cases ht
  | ldB x =>
    rcases execLdB_cases s x with ⟨_, e⟩ | ⟨_, e⟩ <;> cases e.symm.trans h
    · exact advance_successor 2 rfl
    · cases ht
  | storeRegs x =>
    rcases execStoreRegs_cases s x with ⟨_, e⟩ | ⟨_, e⟩ <;> cases e.symm.trans h
    · exact advance_successor 2 (by simp)
    · cases ht
  | loadRegs x =>
    rcases execLoadRegs_cases s x with ⟨_, e⟩ | ⟨_, e⟩ <;> cases e.symm.trans h
    · exact advance_successor 2 (by simp)
    · cases ht
  | cls | sys _ | ldByte _ _ | addByte _ _ | ldReg _ _ | orReg _ _ | andReg _ _ | xorReg _ _ | addReg _ _
  | sub _ _ | shr _ _ | subn _ _ | shl _ _ | ldI _ | rnd _ _ | ldVxDT _ | ldDTVx _ | ldSTVx _ | addI _
  | ldF _ =>
    cases h
    exact advance_successor 2 rfl

end Sys2Proof.Machine
end

section
/-! SUPPORT. What an instruction reads of the step's inputs (10_state R43; log entry 1). -/

namespace Sys2Proof.Machine

variable (s : State) (l : List Config.StepInput)

@[simp] theorem State.reg_queue (r : Reg) : ({ s with inputs := l } : State).reg r = s.reg r := rfl

@[simp] theorem State.effAddr_queue (k : Nat) : ({ s with inputs := l } : State).effAddr k = s.effAddr k := rfl

@[simp] theorem State.regBlock_queue (x : Reg) : ({ s with inputs := l } : State).regBlock x = s.regBlock x := rfl

theorem State.push_queue (v : Word) :
    ({ s with inputs := l } : State).push v = withQueue l (s.push v) := by
  unfold State.push
  split <;> rfl

/-- A pop does not look at the queue. -/
theorem State.pop_queue : ({ s with inputs := l } : State).pop =
    s.pop.map fun r => ({ r.1 with inputs := l }, r.2) := by
  unfold State.pop
  split <;> rfl

variable {s l}

/-- An instruction that may raise does the same with the queue replaced, when its computation does. -/
theorem State.orFail_of_queue {t : State} {r r' : Except Failure State} (h : s.orFail r = .next t)
    (hr : r' = withQueue l r) : ({ s with inputs := l } : State).orFail r' = .next { t with inputs := l } :=
  hr ▸ State.orFail_queue s t l r h

theorem State.keyHeld_queue (h : s.input.held = ({ s with inputs := l } : State).input.held) (k : Key) :
    ({ s with inputs := l } : State).keyHeld k = s.keyHeld k := by
  unfold State.keyHeld
  rw [h]

/-- `i` reads the same of the snapshots `a` and `b`: RND the random byte, SKP and SKNP the held keys, LD Vx, K
the last key, every other instruction nothing. -/
structure SameReads (i : Instr) (a b : Config.StepInput) : Prop where
  rnd : (∃ x kk, i = .rnd x kk) → a.rnd = b.rnd
  held : (∃ x, i = .skp x ∨ i = .sknp x) → a.held = b.held
  lastKey : (∃ x, i = .ldVxK x) → a.lastKey = b.lastKey

/-- An instruction does the same with the queue replaced, when it reads the same of the current snapshot. -/
theorem exec_queue (i : Instr) {t : State}
    (hr : SameReads i s.input ({ s with inputs := l } : State).input) (h : exec i s = .next t) :
    exec i { s with inputs := l } = .next { t with inputs := l } := by
  cases i with
  | rnd x kk =>
    cases h
    have e := hr.rnd ⟨x, kk, rfl⟩
    simp only [exec, execRnd, ← e]
    rfl
  | ldVxK x =>
    cases h
    have e := hr.lastKey ⟨x, rfl⟩
    simp only [exec, execLdVxK, ← e]
    rfl
  | skp x =>
    refine State.orFail_of_queue h ?_
    simp only [State.reg_queue, State.keyHeld_queue (hr.held ⟨x, .inl rfl⟩)]
    cases keyOf (s.reg x) <;> rfl
  | sknp x =>
    refine State.orFail_of_queue h ?_
    simp only [State.reg_queue, State.keyHeld_queue (hr.held ⟨x, .inr rfl⟩)]
    cases keyOf (s.reg x) <;> rfl
  | ret =>
    refine State.orFail_of_queue h ?_
    rw [State.pop_queue]
    cases s.pop <;> rfl
  | call nnn =>
    refine State.orFail_of_queue h ?_
    rw [State.push_queue]
    cases s.push s.pc <;> rfl
  | drw x y n =>
    refine State.orFail_of_queue h ?_
    simp only [State.effAddr_queue, State.loadBytes_queue]
    cases s.loadBytes (s.effAddr 0) n.val <;> rfl
  | ldB x =>
    refine State.orFail_of_queue h ?_
    simp only [State.effAddr_queue, State.reg_queue, State.storeBytes_queue]
    cases s.storeBytes (s.effAddr 0) (bcdDigits (s.reg x)) <;> rfl
  | storeRegs x =>
    refine State.orFail_of_queue h ?_
    simp only [State.effAddr_queue, State.regBlock_queue, State.storeBytes_queue]
    cases s.storeBytes (s.effAddr 0) (s.regBlock x) with
    | error f => rfl
    | ok u => simp only [withQueue, State.bumpI_queue]; rfl
  | loadRegs x =>
    refine State.orFail_of_queue h ?_
    simp only [State.effAddr_queue, State.loadBytes_queue]
    cases s.loadBytes (s.effAddr 0) (x.val + 1) with
    | error f => rfl
    | ok bs => simp only [withQueue, State.setRegsFrom_queue, State.bumpI_queue]; rfl
  | cls | sys _ | jp _ | seByte _ _ | sneByte _ _ | seReg _ _ | ldByte _ _ | addByte _ _ | ldReg _ _
  | orReg _ _ | andReg _ _ | xorReg _ _ | addReg _ _ | sub _ _ | shr _ _ | subn _ _ | shl _ _ | sneReg _ _
  | ldI _ | jpV0 _ | ldVxDT _ | ldDTVx _ | ldSTVx _ | addI _ | ldF _ =>
    cases h
    rfl

/-- Settles O22: the current snapshots are `a` and `b`, of which the instruction reads the same. -/
theorem unreadInputsHaveNoEffect : Obligations.UnreadInputsHaveNoEffect := by
  intro i s t a b rest hrnd hheld hkey h
  exact exec_queue (s := { s with inputs := a :: rest }) (l := b :: rest) i ⟨hrnd, hheld, hkey⟩ h

end Sys2Proof.Machine
end

section
/-! SUPPORT. What an instruction and a step can do to memory, as a list and as bytes (20_memory R50, R54, R65). -/

namespace Sys2Proof.Machine

/-! ### The increment of I, loaded registers and the timer phase leave memory -/

@[simp] theorem State.bumpI_mem (s : State) (x : Reg) : (s.bumpI x).mem = s.mem := by
  rcases s.bumpI_cases x with e | ⟨_, _, e⟩ <;> rw [e]
  rfl

@[simp] theorem State.bumpI_byteAt (s : State) (x : Reg) (q : Nat) : (s.bumpI x).byteAt q = s.byteAt q := by
  rcases s.bumpI_cases x with e | ⟨_, _, e⟩ <;> rw [e]
  rfl

@[simp] theorem State.bumpI_status (s : State) (x : Reg) : (s.bumpI x).status = s.status := by
  rcases s.bumpI_cases x with e | ⟨_, _, e⟩ <;> rw [e]
  rfl

@[simp] theorem State.setRegsFrom_mem (s : State) (k : Nat) (bs : List Byte) :
    (s.setRegsFrom k bs).mem = s.mem := by
  rw [State.setRegsFrom_eq]

/-- The timer phase does not change where the block may write. -/
@[simp] theorem State.timerBefore_writable (s : State) (a n : Nat) :
    s.timerBefore.writable a n ↔ s.writable a n := by
  simp [State.writable]

@[simp] theorem State.timerBefore_regBlock (s : State) (x : Reg) : s.timerBefore.regBlock x = s.regBlock x := by
  simp [State.regBlock]

@[simp] theorem State.timerBefore_memOk (s : State) : s.timerBefore.memOk ↔ s.memOk := by
  simp [State.memOk]

/-! ### The memory a step can end with -/

/-- `m` is the memory of `s`, or that memory after one run of writes at addresses where `s` may write. -/
def MemoryAfter (s : State) (m : Memory) : Prop :=
  m = s.mem ∨ ∃ (a : Nat) (vs : List Byte), s.writable a vs.length ∧
    m = Memory.writeAll s.params.font s.mem a vs

theorem MemoryAfter.of_timerBefore {s : State} {m : Memory} (h : MemoryAfter s.timerBefore m) :
    MemoryAfter s m := by
  simpa [MemoryAfter] using h

theorem execLdB_memory {x : Reg} {s t : State} (h : execLdB x s = .next t) : MemoryAfter s t.mem := by
  rcases execLdB_cases s x with ⟨hw, e⟩ | ⟨_, e⟩ <;> cases e.symm.trans h
  · exact .inr ⟨s.effAddr 0, bcdDigits (s.reg x), hw, rfl⟩
  · exact .inl rfl

theorem execStoreRegs_memory {x : Reg} {s t : State} (h : execStoreRegs x s = .next t) :
    MemoryAfter s t.mem := by
  rcases execStoreRegs_cases s x with ⟨hw, e⟩ | ⟨_, e⟩ <;> cases e.symm.trans h
  · exact .inr ⟨s.effAddr 0, s.regBlock x, by rwa [s.regBlock_length], by simp⟩
  · exact .inl rfl

/-- LD B and LD [I] alone store (20_memory R58), and only where every one of their writes is allowed. -/
theorem exec_memory {i : Instr} {s t : State} (h : exec i s = .next t) : MemoryAfter s t.mem := by
  cases i with
  | ldB x => exact execLdB_memory h
  | storeRegs x => exact execStoreRegs_memory h
  | ret => rcases execRet_cases s with ⟨_, e⟩ | ⟨_, e⟩ <;> cases e.symm.trans h <;> exact .inl rfl
  | call nnn => rcases execCall_cases s nnn with ⟨_, e⟩ | ⟨_, e⟩ <;> cases e.symm.trans h <;> exact .inl rfl
  | skp x => rcases execSkp_cases s x with ⟨_, _, e⟩ | ⟨_, e⟩ <;> cases e.symm.trans h <;> exact .inl rfl
  | sknp x => rcases execSknp_cases s x with ⟨_, _, e⟩ | ⟨_, e⟩ <;> cases e.symm.trans h <;> exact .inl rfl
  | drw x y n => rcases execDrw_cases s x y n with ⟨_, e⟩ | ⟨_, e⟩ <;> cases e.symm.trans h <;> exact .inl rfl
  | loadRegs x =>
    rcases execLoadRegs_cases s x with ⟨_, e⟩ | ⟨_, e⟩ <;> cases e.symm.trans h
    · exact .inl (by simp)
    · exact .inl rfl
  | cls | sys _ | jp _ | seByte _ _ | sneByte _ _ | seReg _ _ | ldByte _ _ | addByte _ _ | ldReg _ _
  | orReg _ _ | andReg _ _ | xorReg _ _ | addReg _ _ | sub _ _ | shr _ _ | subn _ _ | shl _ _ | sneReg _ _
  | ldI _ | jpV0 _ | rnd _ _ | ldVxDT _ | ldVxK _ | ldDTVx _ | ldSTVx _ | addI _ | ldF _ =>
    cases h
    exact .inl rfl

/-- A failing step keeps memory; a completed one ends with the memory of its instruction. -/
theorem step_memory {s t : State} (h : step s = .next t) : MemoryAfter s t.mem := by
  rcases step_cases s (running_of_step h) with
    ⟨_, e⟩ | ⟨_, ⟨_, e⟩ | ⟨i, _, ⟨f, _, e⟩ | ⟨u, hx, _, _, e⟩⟩⟩ <;> cases e.symm.trans h
  · exact .inl rfl
  · exact .inl rfl
  · exact .inl rfl
  · simpa using (exec_memory hx).of_timerBefore

theorem step_params {s t : State} (h : step s = .next t) : t.params = s.params :=
  (parametersFixedAndOneSnapshotUsed s t h).1

/-! ### The two invariants of memory -/

theorem MemoryAfter.wf {s : State} {m : Memory} (h : MemoryAfter s m) (hm : s.memOk) :
    Memory.wf s.params.font m = true := by
  rcases h with rfl | ⟨a, vs, ⟨hfit, _⟩, rfl⟩
  · exact hm
  · exact Memory.wf_writeAll _ vs s.mem a hfit hm

/-- Protected writes start above the reserved area, so no byte at or below its end is among theirs. -/
theorem MemoryAfter.read_reserved {s : State} {m : Memory} (h : MemoryAfter s m) (hm : s.memOk)
    (hp : s.params.protectReserved = true) {q : Nat} (hq : q ≤ reservedEnd) :
    Memory.read s.params.font m q = s.byteAt q := by
  rcases h with rfl | ⟨a, vs, ⟨hfit, habove⟩, rfl⟩
  · rfl
  · have hbelow : q < a := Nat.lt_of_le_of_lt hq (habove hp)
    rw [Memory.read_writeAll _ vs s.mem a q hfit hm, dif_neg (by omega)]
    rfl

/-- Settles O17, by the memory a step can end with. -/
theorem stepKeepsMemoryCanonical : Obligations.StepKeepsMemoryCanonical := by
  intro s t hm h
  show Memory.wf t.params.font t.mem = true
  rw [step_params h]
  exact (step_memory h).wf hm

/-- Settles O19, by the memory a step can end with. -/
theorem protectedAreaIsNeverWritten : Obligations.ProtectedAreaIsNeverWritten := by
  intro s t hm hp h a ha
  show Memory.read t.params.font t.mem a = s.byteAt a
  rw [step_params h]
  exact (step_memory h).read_reserved hm hp ha

/-! ### Memory at reset -/

/-- Reset loads an image that fits, and refuses one that does not (70_reset_and_hazards R240, R242). -/
theorem State.resetWith_cases (p : Config.Params) (image : List Byte) :
    ((loadAddress p.loadOffset).toNat + image.length ≤ memSize ∧
      State.resetWith p image = .next ((State.initial p).setMem
        (Memory.writeAll p.font [] (loadAddress p.loadOffset).toNat image))) ∨
    (memSize < (loadAddress p.loadOffset).toNat + image.length ∧
      State.resetWith p image = .refused (.imageTooLong image.length)) := by
  by_cases h : memSize < (loadAddress p.loadOffset).toNat + image.length
  · exact .inr ⟨h, if_pos h⟩
  · exact .inl ⟨Nat.le_of_not_lt h, if_neg h⟩

theorem State.initial_memOk (p : Config.Params) : (State.initial p).memOk := rfl

/-- Settles O18: the image is written inside memory, into the empty list. -/
theorem resetMemoryIsCanonical : Obligations.ResetMemoryIsCanonical := by
  refine ⟨State.initial_memOk defaultParams, fun p image t h => ?_⟩
  rcases State.resetWith_cases p image with ⟨hfit, e⟩ | ⟨_, e⟩ <;> cases e.symm.trans h
  exact Memory.wf_writeAll p.font image [] _ hfit (State.initial_memOk p)

end Sys2Proof.Machine
end

section
/-! SUPPORT. Fetches: beyond memory, and of the bytes a step stored (20_memory R55, R63). -/

namespace Sys2Proof.Machine

/-- Settles O8: of the four cases of a running block's step, only the failed fetch has this pc. -/
theorem fetchBeyondMemoryFails : Obligations.FetchBeyondMemoryFails := by
  intro s hs hpc
  rcases step_cases s hs with ⟨_, e⟩ | ⟨hin, _⟩
  · exact e
  · exact absurd hin (Nat.not_lt.mpr hpc)

/-- A step whose instruction completes runs it between the two places of the timer phase (30_encoding R90). -/
theorem step_of_exec {s t : State} {i : Instr} (hs : s.status = .running) (hpc : s.pc.toNat + 1 < memSize)
    (hd : decodeWord (s.byteAt s.pc.toNat ++ s.byteAt (s.pc.toNat + 1)) = some i)
    (hx : exec i s.timerBefore = .next t) (ht : t.status = .running) :
    step s = .next t.timerAfter.nextInput := by
  simp [step, State.fetch, State.commit, hs, hpc, hd, hx, ht]

/-- A fetch with pc at an address inside memory. -/
theorem State.fetch_at (s : State) {a : Nat} (h : a + 1 < memSize) :
    ({ s with pc := BitVec.ofNat 16 a } : State).fetch = .ok (s.byteAt a, s.byteAt (a + 1)) := by
  have ha : a % 2 ^ 16 = a := Nat.mod_eq_of_lt (by unfold memSize at h; omega)
  unfold State.fetch
  rw [BitVec.toNat_ofNat, ha, if_pos h]
  rfl

/-- After a store of V0 to Vx, the byte at I + k is V[k] (43_index_memory R154). -/
theorem State.byteAt_storedRegs (s : State) {x k : Reg} (hm : s.memOk)
    (hfit : s.effAddr 0 + (x.val + 1) ≤ memSize) (hk : k ≤ x) :
    (s.setMem (Memory.writeAll s.params.font s.mem (s.effAddr 0) (s.regBlock x))).byteAt (s.effAddr k.val) =
      s.reg k := by
  rw [← s.regBlock_length x] at hfit
  have hlen : k.val < (s.regBlock x).length := by rw [s.regBlock_length]; exact Nat.lt_succ_of_le hk
  calc _ = (s.regBlock x)[k.val] := s.byteAt_writeAll (s.effAddr 0) (s.regBlock x) hm hfit k.val hlen
    _ = s.reg (Fin.ofNat 16 k.val) := s.regBlock_getElem x k.val hlen
    _ = s.reg k := by rw [Fin.ofNat_val_eq_self]

/-- A step of LD [I], Vx that may write completes, and V0 to Vx then stand at I. -/
theorem step_storeRegs {s : State} {x : Reg} (hm : s.memOk) (hs : s.status = .running)
    (hpc : s.pc.toNat + 1 < memSize)
    (hd : decodeWord (s.byteAt s.pc.toNat ++ s.byteAt (s.pc.toNat + 1)) = some (.storeRegs x))
    (hw : s.writable (s.effAddr 0) (x.val + 1)) :
    ∃ t, step s = .next t ∧ t.status = .running ∧ ∀ k ≤ x, t.byteAt (s.effAddr k.val) = s.reg k := by
  have hx := execStoreRegs_of_writable x s.timerBefore (by simpa using hw)
  refine ⟨_, step_of_exec hs hpc hd hx (by simp [hs]), by simp [hs], fun k hk => ?_⟩
  simpa using s.timerBefore.byteAt_storedRegs (by simpa using hm) (by simpa using hw.1) hk

/-- Settles O25: two neighbouring stored registers are the two bytes of the fetch there. -/
theorem storedCodeIsFetched : Obligations.StoredCodeIsFetched := by
  intro s x hm hs hpc hd hw
  obtain ⟨t, hstep, ht, hbytes⟩ := step_storeRegs hm hs (Nat.lt_succ_of_le hpc) hd hw
  refine ⟨t, hstep, ht, fun k q hq hqx => ?_⟩
  have hle : q.val ≤ x.val := hqx
  have hkx : k.val ≤ x.val := by omega
  have hsucc : s.effAddr q.val = s.effAddr k.val + 1 := by rw [hq]; rfl
  have hin : s.effAddr k.val + 1 < memSize := by
    have := hw.1
    unfold State.effAddr at this ⊢
    omega
  rw [t.fetch_at hin, hbytes k hkx, ← hsucc, hbytes q hqx]

end Sys2Proof.Machine
end

section
/-! SUPPORT. The decoder and the encoder are inverse to each other on words (30_encoding R73, R76, R78). -/

namespace Sys2Proof

/-- SYS stands for a word only where neither CLS nor RET takes precedence (30_encoding R74). -/
theorem Instr.wellFormed_sys (nnn : Addr12) :
    (Instr.sys nnn).wellFormed = true ↔ nnn ≠ 0x0E0 ∧ nnn ≠ 0x0EE := by
  simp [Instr.wellFormed]

theorem wordAddr_inj {op : BitVec 4} {a b : Addr12} (h : wordAddr op a = wordAddr op b) : a = b := by
  rw [← fieldNNN_wordAddr op a, h, fieldNNN_wordAddr]

/-- A word of group 0x0 is its address in 16 bits. -/
theorem wordAddr_zero (nnn : Addr12) : wordAddr 0x0 nnn = BitVec.ofNat 16 nnn.toNat := by
  apply BitVec.eq_of_toNat_eq
  rw [wordAddr_toNat, BitVec.toNat_ofNat]
  show 0 * 4096 + nnn.toNat = nnn.toNat % 2 ^ 16
  omega

/-! ### Decoding a built word -/

theorem decodeGroup0_wordAddr {nnn : Addr12} (hcls : nnn ≠ 0x0E0) (hret : nnn ≠ 0x0EE) :
    decodeGroup0 (wordAddr 0#4 nnn) = .sys nnn := by
  have ncls : wordAddr 0#4 nnn ≠ 0x00E0 := fun e => hcls (wordAddr_inj (op := 0#4) e)
  have nret : wordAddr 0#4 nnn ≠ 0x00EE := fun e => hret (wordAddr_inj (op := 0#4) e)
  rw [decodeGroup0, if_neg ncls, if_neg nret, fieldNNN_wordAddr]

/-- Decoding the word of a well-formed instruction gives it back: the fields of a built word are those it was
built from, by its pattern. -/
theorem decodeWord_encodeWord {i : Instr} (h : i.wellFormed = true) : decodeWord (encodeWord i) = some i := by
  cases i with
  | cls | ret => decide
  | sys nnn =>
    obtain ⟨hcls, hret⟩ := (Instr.wellFormed_sys nnn).mp h
    simp [encodeWord, decodeWord, fieldOp_wordAddr, decodeGroup0_wordAddr hcls hret]
  | jp _ | call _ | ldI _ | jpV0 _ => simp [encodeWord, decodeWord, fieldOp_wordAddr, fieldNNN_wordAddr]
  | seByte _ _ | sneByte _ _ | ldByte _ _ | addByte _ _ | rnd _ _ =>
    simp [encodeWord, decodeWord, fieldOp_wordByte, fieldX_wordByte, fieldKK_wordByte]
  | seReg _ _ | sneReg _ _ | drw _ _ _ =>
    simp [encodeWord, decodeWord, fieldOp_wordRegs, fieldX_wordRegs, fieldY_wordRegs, fieldN_wordRegs]
  | ldReg _ _ | orReg _ _ | andReg _ _ | xorReg _ _ | addReg _ _ | sub _ _ | shr _ _ | subn _ _ | shl _ _ =>
    simp [encodeWord, decodeWord, decodeGroup8, fieldOp_wordRegs, fieldX_wordRegs, fieldY_wordRegs,
      fieldN_wordRegs]
  | skp _ | sknp _ =>
    simp [encodeWord, decodeWord, decodeGroupE, fieldOp_wordByte, fieldX_wordByte, fieldKK_wordByte]
  | ldVxDT _ | ldVxK _ | ldDTVx _ | ldSTVx _ | addI _ | ldF _ | ldB _ | storeRegs _ | loadRegs _ =>
    simp [encodeWord, decodeWord, decodeGroupF, fieldOp_wordByte, fieldX_wordByte, fieldKK_wordByte]

/-! ### Encoding a decoded word -/

/-- `i` is well-formed and stands for the word `w`. -/
def Instr.Encodes (i : Instr) (w : Word) : Prop := i.wellFormed = true ∧ encodeWord i = w

theorem decodeGroup0_encodes {w : Word} (ho : fieldOp w = 0x0) : (decodeGroup0 w).Encodes w := by
  have hw : wordAddr 0x0 (fieldNNN w) = w := wordAddr_fields w _ ho
  unfold decodeGroup0
  split
  · next hcls => exact ⟨rfl, hcls.symm⟩
  · next hcls =>
    split
    · next hret => exact ⟨rfl, hret.symm⟩
    · next hret =>
      refine ⟨(Instr.wellFormed_sys _).mpr ⟨fun e => hcls ?_, fun e => hret ?_⟩, hw⟩ <;>
      · rw [← hw, e]
        rfl

theorem decodeGroup8_encodes {w : Word} {i : Instr} (ho : fieldOp w = 0x8) (h : decodeGroup8 w = some i) :
    i.Encodes w := by
  unfold decodeGroup8 at h
  split at h <;> cases h
  all_goals exact ⟨rfl, wordRegs_fields w _ _ ho ‹_›⟩

theorem decodeGroupE_encodes {w : Word} {i : Instr} (ho : fieldOp w = 0xE) (h : decodeGroupE w = some i) :
    i.Encodes w := by
  unfold decodeGroupE at h
  split at h <;> cases h
  all_goals exact ⟨rfl, wordByte_fields w _ _ ho ‹_›⟩

theorem decodeGroupF_encodes {w : Word} {i : Instr} (ho : fieldOp w = 0xF) (h : decodeGroupF w = some i) :
    i.Encodes w := by
  unfold decodeGroupF at h
  split at h <;> cases h
  all_goals exact ⟨rfl, wordByte_fields w _ _ ho ‹_›⟩

/-- Whatever a word decodes to is well-formed and stands for that word. -/
theorem encodes_of_decodeWord {w : Word} {i : Instr} (h : decodeWord w = some i) : i.Encodes w := by
  unfold decodeWord at h
  split at h
  · next ho => cases h; exact decodeGroup0_encodes ho
  · next ho => cases h; exact ⟨rfl, wordAddr_fields w _ ho⟩
  · next ho => cases h; exact ⟨rfl, wordAddr_fields w _ ho⟩
  · next ho => cases h; exact ⟨rfl, wordByte_fields w _ _ ho rfl⟩
  · next ho => cases h; exact ⟨rfl, wordByte_fields w _ _ ho rfl⟩
  · next ho =>
    split at h <;> cases h
    exact ⟨rfl, wordRegs_fields w _ _ ho ‹_›⟩
  · next ho => cases h; exact ⟨rfl, wordByte_fields w _ _ ho rfl⟩
  · next ho => cases h; exact ⟨rfl, wordByte_fields w _ _ ho rfl⟩
  · next ho => exact decodeGroup8_encodes ho h
  · next ho =>
    split at h <;> cases h
    exact ⟨rfl, wordRegs_fields w _ _ ho ‹_›⟩
  · next ho => cases h; exact ⟨rfl, wordAddr_fields w _ ho⟩
  · next ho => cases h; exact ⟨rfl, wordAddr_fields w _ ho⟩
  · next ho => cases h; exact ⟨rfl, wordByte_fields w _ _ ho rfl⟩
  · next ho => cases h; exact ⟨rfl, wordRegs_fields w _ _ ho rfl⟩
  · next ho => exact decodeGroupE_encodes ho h
  · have ho : fieldOp w = 0xF := by
      have := nibble_cases (fieldOp w)
      tauto
    exact decodeGroupF_encodes ho h

/-! ### Byte strings -/

/-- A byte string decodes when its first two bytes are a word that does, and leaves the bytes after them
(30_encoding R79). -/
theorem decode_eq_ok_iff {bytes rest : List Byte} {i : Instr} : decode bytes = .ok (i, rest) ↔
    ∃ hi lo, bytes = hi :: lo :: rest ∧ decodeWord (hi ++ lo) = some i := by
  constructor
  · intro h
    unfold decode at h
    split at h
    · next hi lo rest' =>
      split at h <;> cases h
      exact ⟨hi, lo, rfl, ‹_›⟩
    · cases h
  · rintro ⟨hi, lo, rfl, hd⟩
    simp [decode, hd]

/-- Settles O3: the two bytes make up the instruction's word again, which decodes to it. -/
theorem decodeOfEncode : Obligations.DecodeOfEncode := by
  intro i rest h
  refine decode_eq_ok_iff.mpr ⟨_, _, rfl, ?_⟩
  rw [highByte_append_lowByte]
  exact decodeWord_encodeWord h

/-- Settles O4: the first two bytes are those of the word that the instruction stands for. -/
theorem encodeOfDecode : Obligations.EncodeOfDecode := by
  intro bytes rest i h
  obtain ⟨hi, lo, rfl, hd⟩ := decode_eq_ok_iff.mp h
  obtain ⟨hwf, he⟩ := encodes_of_decodeWord hd
  refine ⟨hwf, ?_⟩
  rw [encode, he, highByte_append, lowByte_append]
  rfl

/-! ### The illegal words (30_encoding R77) -/

/-- In group 0x8, the illegal words are those with one of seven low nibbles. -/
theorem decodeGroup8_eq_none_iff (w : Word) :
    decodeGroup8 w = none ↔ w.toNat % 16 ∈ [0x8, 0x9, 0xA, 0xB, 0xC, 0xD, 0xF] := by
  rw [← fieldN_toNat]
  rcases nibble_cases (fieldN w) with
    hn | hn | hn | hn | hn | hn | hn | hn | hn | hn | hn | hn | hn | hn | hn | hn <;>
    simp [decodeGroup8, hn]

/-- In group 0xE, the illegal words are those whose low byte is not one of the two listed. -/
theorem decodeGroupE_eq_none_iff (w : Word) : decodeGroupE w = none ↔ w.toNat % 256 ∉ [0x9E, 0xA1] := by
  rw [← fieldKK_toNat]
  unfold decodeGroupE
  split <;> simp_all [← BitVec.toNat_inj]

/-- In group 0xF, the illegal words are those whose low byte is not one of the nine listed. -/
theorem decodeGroupF_eq_none_iff (w : Word) :
    decodeGroupF w = none ↔ w.toNat % 256 ∉ [0x07, 0x0A, 0x15, 0x18, 0x1E, 0x29, 0x33, 0x55, 0x65] := by
  rw [← fieldKK_toNat]
  unfold decodeGroupF
  split <;> simp_all [← BitVec.toNat_inj]

theorem fieldN_eq_zero_iff (w : Word) : fieldN w = 0#4 ↔ w.toNat % 16 = 0 := by
  rw [← fieldN_toNat, ← BitVec.toNat_inj]
  rfl

/-- Settles O5, by the sixteen opcodes: five of them have illegal words, each its own. -/
theorem illegalWordsAreExactlyTheListed : Obligations.IllegalWordsAreExactlyTheListed := by
  intro w
  rw [← fieldOp_toNat]
  rcases nibble_cases (fieldOp w) with
    ho | ho | ho | ho | ho | ho | ho | ho | ho | ho | ho | ho | ho | ho | ho | ho <;>
    simp [decodeWord, ho, fieldN_eq_zero_iff, decodeGroup8_eq_none_iff, decodeGroupE_eq_none_iff,
      decodeGroupF_eq_none_iff]

/-- Settles O6: each word is the encoding of its instruction, and `FFFF` is in the list of O5. -/
theorem writtenOutWordsDecode : Obligations.WrittenOutWordsDecode :=
  ⟨decodeWord_encodeWord (i := .ldByte 0 0x05) rfl, decodeWord_encodeWord (i := .addByte 0 0x03) rfl,
    decodeWord_encodeWord (i := .cls) rfl, decodeWord_encodeWord (i := .ret) rfl,
    decodeWord_encodeWord (i := .sys 0) rfl, decodeWord_encodeWord (i := .call 0xABC) rfl,
    decodeWord_encodeWord (i := .subn 0xA 0xB) rfl, decodeWord_encodeWord (i := .drw 1 2 15) rfl,
    decodeWord_encodeWord (i := .skp 0xC) rfl, decodeWord_encodeWord (i := .loadRegs 3) rfl,
    (illegalWordsAreExactlyTheListed 0xFFFF).mpr (by decide)⟩

end Sys2Proof
end

section
/-! SUPPORT. The step in terms of the instruction at pc (30_encoding R90, R91; 41_control_flow R100). -/

namespace Sys2Proof.Machine

/-- No execute phase changes the parameters, whether it completes or fails. -/
theorem exec_params {i : Instr} {s t : State} (h : exec i s = .next t) : t.params = s.params := by
  rcases exec_outcome i s with ⟨f, e⟩ | ⟨u, e, hc⟩ <;> cases e.symm.trans h
  · rfl
  · exact hc.params

/-- A step whose instruction fails commits nothing but the failure (30_encoding R91). -/
theorem step_of_exec_failed {s t : State} {i : Instr} {f : Failure} (hs : s.status = .running)
    (hpc : s.pc.toNat + 1 < memSize)
    (hd : decodeWord (s.byteAt s.pc.toNat ++ s.byteAt (s.pc.toNat + 1)) = some i)
    (hx : exec i s.timerBefore = .next t) (ht : t.status = .failed f) : step s = .next (s.fail f) := by
  simp [step, State.fetch, State.commit, hs, hpc, hd, hx, ht]

/-- Settles O7: P_TIMER_PHASE, which the instruction does not change, says on which side of it the timer phase
stands. -/
theorem stepRunsTheDecodedInstruction : Obligations.StepRunsTheDecodedInstruction := by
  intro s t i hs hpc hd
  replace hpc : s.pc.toNat + 1 < memSize := Nat.lt_succ_of_le hpc
  refine ⟨fun hp hx ht => ?_, fun hp hx ht => ?_, fun f hx ht => step_of_exec_failed hs hpc hd hx ht⟩
  · have htp : t.params.timerPhase = .before := by rw [exec_params hx, State.timerTick_params, hp]
    rw [step_of_exec hs hpc hd (by rwa [s.timerBefore_of_before hp]) ht,
      t.timerAfter_of_before htp]
  · have htp : t.params.timerPhase = .after := by rw [exec_params hx, hp]
    rw [step_of_exec hs hpc hd (by rwa [s.timerBefore_of_after hp]) ht,
      t.timerAfter_of_after htp]

/-- Settles O10: three of the four cases of a running block's step take a failure, and a completed one ends
running. -/
theorem failingStepChangesOnlyStatus : Obligations.FailingStepChangesOnlyStatus := by
  intro s t f hs h ht
  rcases step_cases s hs with
    ⟨_, e⟩ | ⟨_, ⟨_, e⟩ | ⟨_, _, ⟨_, _, e⟩ | ⟨u, _, _, hu, e⟩⟩⟩ <;> cases e.symm.trans h
  · cases ht; rfl
  · cases ht; rfl
  · cases ht; rfl
  · simp [hu] at ht

/-- Settles O27: a SYS word is the encoding of its instruction, whose one effect is the advance of pc. -/
theorem sysIsANoOp : Obligations.SysIsANoOp := by
  refine ⟨⟨decodeWord_encodeWord (i := .cls) rfl, decodeWord_encodeWord (i := .ret) rfl,
    fun nnn hcls hret => ?_⟩, fun nnn s => ?_⟩
  · rw [← wordAddr_zero]
    exact decodeWord_encodeWord (i := .sys nnn) ((Instr.wellFormed_sys nnn).mpr ⟨hcls, hret⟩)
  · exact ⟨s.advance 2, rfl, pcPlus_of_pc s _ 2 rfl, frame_setPc s _⟩

end Sys2Proof.Machine
end

section
/-! SUPPORT. Jumps, calls, returns and skips: the effect of each, and a call with its return over two steps
(41_control_flow R101 to R109). -/

namespace Sys2Proof.Machine

/-! ### Jumps (R102, R104) -/

/-- Settles O28: zero-extension keeps the value of the address. -/
theorem jumpSetsPc : Obligations.JumpSetsPc := fun nnn s =>
  ⟨s.setPc (zext16 nnn), rfl, zext16_toNat nnn, frame_setPc s _⟩

/-- A 12-bit address and a byte, both zero-extended, sum without a carry out of 16 bits. -/
theorem zext16_add_byteToWord_toNat (nnn : Addr12) (b : Byte) :
    (zext16 nnn + byteToWord b).toNat = nnn.toNat + b.toNat := by
  rw [BitVec.toNat_add, zext16_toNat, byteToWord_toNat]
  exact Nat.mod_eq_of_lt (by omega)

/-- Settles O29: the sum fits 16 bits. -/
theorem jumpWithOffsetSetsPc : Obligations.JumpWithOffsetSetsPc := fun nnn s =>
  ⟨s.setPc (zext16 nnn + byteToWord (s.reg 0)), rfl, zext16_add_byteToWord_toNat nnn _, frame_setPc s _⟩

/-! ### CALL and RET (R101, R103) -/

/-- Settles O30, by the two ways a CALL ends. -/
theorem callSavesItsOwnAddress : Obligations.CallSavesItsOwnAddress := by
  intro nnn s
  rcases execCall_cases s nnn with ⟨hroom, e⟩ | ⟨hfull, e⟩
  · refine ⟨fun _ => ⟨_, e, zext16_toNat nnn, rfl, fun k => ?_, frame_setStack s _ _ _⟩,
      fun hfull => absurd hfull hroom.ne⟩
    simp [Vector.getElem_set, eq_comm]
  · exact ⟨fun hroom => absurd hfull hroom.ne, fun _ => e⟩

/-- Settles O31, by the two ways a RET ends. -/
theorem returnResumesAfterTheCall : Obligations.ReturnResumesAfterTheCall := by
  intro s
  rcases execRet_cases s with ⟨hsaved, e⟩ | ⟨hnone, e⟩
  · refine ⟨fun k hk => ⟨_, e, ?_, by simp [hk], rfl, frame_setStack s _ _ _⟩,
      fun hnone => absurd hnone hsaved.ne'⟩
    simp [hk]
  · exact ⟨fun k hk => by omega, fun _ => e⟩

/-! ### A CALL and the RET it reaches (R109) -/

/-- A step of CALL with room on the stack completes at its address, with its own address the last one saved and
memory as it was. -/
theorem step_call {s : State} {nnn : Addr12} (hs : s.status = .running) (hpc : s.pc.toNat + 1 < memSize)
    (hd : decodeWord (s.byteAt s.pc.toNat ++ s.byteAt (s.pc.toNat + 1)) = some (.call nnn))
    (hroom : s.sp.val < 16) :
    ∃ t, step s = .next t ∧ t.status = .running ∧ t.pc.toNat = nnn.toNat ∧ t.sp.val = s.sp.val + 1 ∧
      t.stack[s.sp.val] = s.pc ∧ ∀ a, t.byteAt a = s.byteAt a := by
  obtain ⟨t, hx, htpc, htsp, hstack, hf⟩ := (callSavesItsOwnAddress nnn s.timerBefore).1 (by simpa using hroom)
  have hrun : t.status = .running := by simp [hf.status, hs]
  refine ⟨_, step_of_exec hs hpc hd hx hrun, by simp [hrun], by simp [htpc], by simp [htsp], ?_, fun a => ?_⟩
  · simpa using hstack ⟨s.sp.val, hroom⟩
  · simpa using hf.memory a nofun

/-- A step of RET with an address saved completes after it, one entry less deep. -/
theorem step_ret {s : State} {k : Fin 16} (hs : s.status = .running) (hpc : s.pc.toNat + 1 < memSize)
    (hd : decodeWord (s.byteAt s.pc.toNat ++ s.byteAt (s.pc.toNat + 1)) = some .ret)
    (hk : s.sp.val = k.val + 1) :
    ∃ t, step s = .next t ∧ t.status = .running ∧ t.pc.toNat = (s.stack[k.val].toNat + 2) % 2 ^ 16 ∧
      t.sp.val = k.val := by
  obtain ⟨t, hx, htpc, htsp, _, hf⟩ := (returnResumesAfterTheCall s.timerBefore).1 k (by simpa using hk)
  have hrun : t.status = .running := by simp [hf.status, hs]
  exact ⟨_, step_of_exec hs hpc hd hx hrun, by simp [hrun], by simp [htpc], by simp [htsp]⟩

/-- Settles O24: the RET takes the entry the CALL saved, and pc + 2 of a fetched CALL fits 16 bits. -/
theorem callThenReturnRoundTrip : Obligations.CallThenReturnRoundTrip := by
  intro s nnn hs hroom hpc hnnn hcall hret
  obtain ⟨t, hstep, htrun, htpc, htsp, hsaved, hmem⟩ := step_call hs (Nat.lt_succ_of_le hpc) hcall hroom
  obtain ⟨u, hstep', hurun, hupc, husp⟩ := step_ret (k := ⟨s.sp.val, hroom⟩) htrun
    (by rw [htpc]; exact Nat.lt_succ_of_le hnnn) (by rw [htpc, hmem, hmem]; exact hret) htsp
  refine ⟨t, u, hstep, htpc, htsp, hstep', hurun, ?_, Fin.ext husp⟩
  rw [hupc, hsaved]
  exact Nat.mod_eq_of_lt (by omega)

/-! ### Skips (R105 to R108) -/

/-- A skip advances pc by 4 or by 2, by its condition, and leaves everything else. -/
theorem skipIf_effect (s : State) (c : Bool) : Frame (fun _ => False) s (s.skipIf c) ∧
    (c = true → PcPlus 4 s (s.skipIf c)) ∧ (c = false → PcPlus 2 s (s.skipIf c)) := by
  refine ⟨frame_setPc s _, ?_, ?_⟩
  · rintro rfl
    exact pcPlus_of_pc s _ 4 rfl
  · rintro rfl
    exact pcPlus_of_pc s _ 2 rfl

/-- Settles O32: each of the four is a skip on its own condition. -/
theorem skipsAdvanceByFourOrTwo : Obligations.SkipsAdvanceByFourOrTwo := by
  intro x y kk s
  refine ⟨⟨_, rfl, ?_⟩, ⟨_, rfl, ?_⟩, ⟨_, rfl, ?_⟩, ⟨_, rfl, ?_⟩⟩
  · simpa using skipIf_effect s (s.reg x == kk)
  · simpa using skipIf_effect s (s.reg x != kk)
  · simpa using skipIf_effect s (s.reg x == s.reg y)
  · simpa using skipIf_effect s (s.reg x != s.reg y)

end Sys2Proof.Machine
end

section
/-! SUPPORT. Register loads and the instruction ALU: what a plain and a flagged result leave, and the results and
flags in numbers (42_alu R120 to R135). -/

namespace Sys2Proof.Machine

/-! ### A plain result (R120 to R125, R135) -/

section
variable (s : State) (x : Reg) (b : Byte)

@[simp] theorem result_reg : (s.result x b).reg x = b := by simp [State.result]

theorem result_pcPlus : PcPlus 2 s (s.result x b) := pcPlus_of_pc s _ 2 rfl

theorem result_frame : Frame (· = .reg x) s (s.result x b) := frame_setReg s x b 2

end

/-- An instruction of pattern `Pxkk` is what its word, written as a number, decodes to. -/
theorem decodeWord_ofNat_wordByte {op : BitVec 4} {x : Reg} {kk : Byte} {i : Instr} (hi : i.wellFormed = true)
    (hw : encodeWord i = wordByte op x kk) :
    decodeWord (BitVec.ofNat 16 (op.toNat * 4096 + x.val * 256 + kk.toNat)) = some i := by
  rw [← wordByte_toNat, BitVec.ofNat_toNat, BitVec.setWidth_eq, ← hw]
  exact decodeWord_encodeWord hi

/-- Settles O33: VF is a register like any other here. -/
theorem loadImmediateSetsItsRegister : Obligations.LoadImmediateSetsItsRegister := fun x kk =>
  ⟨decodeWord_ofNat_wordByte (op := 0x6) rfl rfl, fun s =>
    ⟨s.result x kk, rfl, result_reg s x kk, result_pcPlus s x kk, result_frame s x kk⟩⟩

/-- Settles O34: the plain result of V[y]. -/
theorem copySetsItsRegister : Obligations.CopySetsItsRegister := fun x y s =>
  ⟨s.result x (s.reg y), rfl, result_reg s x _, result_pcPlus s x _, result_frame s x _⟩

/-- Settles O35: the sum of two bytes is the sum modulo 256. -/
theorem addImmediateLeavesTheFlag : Obligations.AddImmediateLeavesTheFlag := by
  refine fun x kk => ⟨decodeWord_ofNat_wordByte (op := 0x7) rfl rfl, fun s =>
    ⟨s.result x (s.reg x + kk), rfl, ?_, result_pcPlus s x _, result_frame s x _⟩⟩
  rw [result_reg, BitVec.toNat_add]

/-- Settles O36: each result is the operation on bit vectors, which works bit by bit. -/
theorem bitwiseOperationsCombine : Obligations.BitwiseOperationsCombine := by
  refine fun x y s =>
    ⟨⟨s.result x (s.reg x ||| s.reg y), rfl, result_pcPlus s x _, result_frame s x _, fun k _ => ?_⟩,
     ⟨s.result x (s.reg x &&& s.reg y), rfl, result_pcPlus s x _, result_frame s x _, fun k _ => ?_⟩,
     ⟨s.result x (s.reg x ^^^ s.reg y), rfl, result_pcPlus s x _, result_frame s x _, fun k _ => ?_⟩⟩
  · rw [result_reg, BitVec.getLsbD_or]
  · rw [result_reg, BitVec.getLsbD_and]
  · rw [result_reg, BitVec.getLsbD_xor]

/-- Settles O40: nothing is asked of the random byte. -/
theorem randomByteUnderTheMask : Obligations.RandomByteUnderTheMask := by
  refine fun x kk s =>
    ⟨s.result x (s.input.rnd &&& kk), rfl, fun k _ => ?_, result_pcPlus s x _, result_frame s x _⟩
  rw [result_reg, BitVec.getLsbD_and]

/-! ### A flagged result (R127 to R134) -/

/-- A flagged result in numbers: the flag stands in VF whatever `x` is, and the result in V[x] unless the flag
has taken its place (R129). -/
theorem resultAndFlag_effect {s : State} {x : Reg} {b : Byte} {c : Bool} {m n : Nat} (hb : b.toNat = m)
    (hc : (b2u c).toNat = n) :
    (x ≠ VF → ((s.resultAndFlag x b c).reg x).toNat = m) ∧ ((s.resultAndFlag x b c).reg VF).toNat = n ∧
      PcPlus 2 s (s.resultAndFlag x b c) ∧
      Frame (fun p => p = .reg x ∨ p = .reg VF) s (s.resultAndFlag x b c) :=
  ⟨fun hx => by rw [resultAndFlag_reg s x b c hx, hb], by rw [resultAndFlag_VF, hc], pcPlus_of_pc s _ 2 rfl,
    frame_resultAndFlag s x b c⟩

theorem b2u_carry_toNat (a b : Byte) : (b2u (carry a b)).toNat = if a.toNat + b.toNat > 255 then 1 else 0 := by
  simp [b2u_toNat, carry]

theorem b2u_exceeds_toNat (a b : Byte) : (b2u (exceeds a b)).toNat = if a.toNat > b.toNat then 1 else 0 := by
  simp [b2u_toNat, exceeds]

/-- A difference of bytes, with 256 borrowed in advance. -/
theorem byteSub_toNat (a b : Byte) : (a - b).toNat = (a.toNat + 256 - b.toNat) % 256 := by
  rw [BitVec.toNat_sub]
  omega

/-- A flag read off one bit is the binary digit at its place. -/
theorem b2u_getLsbD_toNat (v : Byte) (k : Nat) : (b2u (v.getLsbD k)).toNat = v.toNat / 2 ^ k % 2 := by
  rw [BitVec.getLsbD, Nat.testBit_eq_decide_div_mod_eq, b2u_toNat]
  rcases Nat.mod_two_eq_zero_or_one (v.toNat / 2 ^ k) with h | h <;> simp [h]

theorem b2u_lowBit_toNat (v : Byte) : (b2u (lowBit v)).toNat = v.toNat % 2 := by
  rw [lowBit, b2u_getLsbD_toNat, pow_zero, Nat.div_one]

theorem b2u_highBit_toNat (v : Byte) : (b2u (highBit v)).toNat = v.toNat / 128 := by
  rw [highBit, b2u_getLsbD_toNat]
  omega

/-- P_SHIFT_SOURCE names the register that is shifted (D12). -/
theorem State.shiftOperand_eq {s : State} {x y : Reg} {src : Byte}
    (hx : s.params.shiftSource = .vx → src = s.reg x) (hy : s.params.shiftSource = .vy → src = s.reg y) :
    s.shiftOperand x y = src := by
  unfold State.shiftOperand
  split
  · next h => exact (hx h).symm
  · next h => exact (hy h).symm

/-- Settles O37: the flagged result of the sum and its carry. -/
theorem addSetsTheCarry : Obligations.AddSetsTheCarry := fun x y s =>
  ⟨s.resultAndFlag x (s.reg x + s.reg y) (carry (s.reg x) (s.reg y)), rfl,
    resultAndFlag_effect (BitVec.toNat_add _ _) (b2u_carry_toNat _ _)⟩

/-- Settles O38: SUBN is SUB with minuend and subtrahend exchanged. -/
theorem subtractionsSetTheStrictFlag : Obligations.SubtractionsSetTheStrictFlag := fun x y s =>
  ⟨⟨s.resultAndFlag x (s.reg x - s.reg y) (exceeds (s.reg x) (s.reg y)), rfl,
      resultAndFlag_effect (byteSub_toNat _ _) (b2u_exceeds_toNat _ _)⟩,
   ⟨s.resultAndFlag x (s.reg y - s.reg x) (exceeds (s.reg y) (s.reg x)), rfl,
      resultAndFlag_effect (byteSub_toNat _ _) (b2u_exceeds_toNat _ _)⟩⟩

/-- Settles O39: both settings of P_SHIFT_SOURCE shift the one operand. -/
theorem shiftsSetTheBitShiftedOut : Obligations.ShiftsSetTheBitShiftedOut := by
  intro x y s src hx hy
  obtain rfl := State.shiftOperand_eq hx hy
  exact
    ⟨⟨s.resultAndFlag x (s.shiftOperand x y >>> 1) (lowBit (s.shiftOperand x y)), rfl,
        resultAndFlag_effect (by rw [BitVec.toNat_ushiftRight, Nat.shiftRight_one]) (b2u_lowBit_toNat _)⟩,
     ⟨s.resultAndFlag x (s.shiftOperand x y <<< 1) (highBit (s.shiftOperand x y)), rfl,
        resultAndFlag_effect (by rw [BitVec.toNat_shiftLeft, Nat.shiftLeft_eq]) (b2u_highBit_toNat _)⟩⟩

end Sys2Proof.Machine
end

section
/-! SUPPORT. Address register and memory instructions: the effect of each on I, on the bytes it stores and on the
registers it loads (43_index_memory R150 to R155). -/

namespace Sys2Proof.Machine

/-! ### Writes of I (R150 to R152) -/

theorem setI_advance_pcPlus (s : State) (a : Word) : PcPlus 2 s ((s.setI a).advance 2) :=
  pcPlus_of_pc s _ 2 rfl

/-- Settles O41: zero-extension keeps the value of the address and of the byte. -/
theorem indexLoadsAndAdds : Obligations.IndexLoadsAndAdds := by
  refine fun nnn x s =>
    ⟨⟨(s.setI (zext16 nnn)).advance 2, rfl, zext16_toNat nnn, setI_advance_pcPlus s _, frame_setI s _ 2⟩,
     ⟨(s.setI (s.I + byteToWord (s.reg x))).advance 2, rfl, ?_, setI_advance_pcPlus s _, frame_setI s _ 2⟩⟩
  rw [State.advance_I, State.setI_I, BitVec.toNat_add, byteToWord_toNat]

/-- A digit's glyph stands at five times the digit: the product fits 16 bits. -/
theorem glyphAddress_toNat (d : Byte) : (glyphAddress d).toNat = d.toNat * 5 := by
  rw [glyphAddress, BitVec.toNat_mul, byteToWord_toNat]
  exact Nat.mod_eq_of_lt (show d.toNat * 5 < 2 ^ 16 by omega)

/-- Settles O42: a byte above 0xF leaves I by writing its own value back. -/
theorem fontAddressOfADigit : Obligations.FontAddressOfADigit := by
  refine fun x s => ⟨_, rfl, ?_, setI_advance_pcPlus s _, frame_setI s _ 2⟩
  rw [State.advance_I, State.setI_I, apply_ite BitVec.toNat, glyphAddress_toNat]

/-! ### Stored digits (R153) -/

/-- A byte made of a number below 256 has its value. -/
theorem byte_ofNat_toNat {n : Nat} (h : n < 256) : (BitVec.ofNat 8 n).toNat = n :=
  (BitVec.toNat_ofNat n 8).trans (Nat.mod_eq_of_lt h)

/-- After a store of three digits, the byte at I + k is the `k`-th of them. -/
theorem State.byteAt_storedDigits {s : State} (v : Byte) {k : Nat} (hm : s.memOk)
    (hfit : s.effAddr 0 + 3 ≤ memSize) (hk : k < 3) :
    (s.setMem (Memory.writeAll s.params.font s.mem (s.effAddr 0) (bcdDigits v))).byteAt (s.effAddr k) =
      (bcdDigits v)[k]'hk :=
  s.byteAt_writeAll (s.effAddr 0) (bcdDigits v) hm hfit k hk

/-- Settles O43: each digit read back is the byte made of it, and a digit is below 256. -/
theorem decimalDigitsAreStored : Obligations.DecimalDigitsAreStored := by
  intro x s hm hw
  refine ⟨_, execLdB_of_writable x s hw, ?_, ?_, ?_, pcPlus_of_pc s _ 2 rfl,
    frame_writeAll s (s.effAddr 0) (bcdDigits (s.reg x)) 2 hm hw.1⟩ <;>
    rw [State.advance_byteAt, State.byteAt_storedDigits _ hm hw.1 (by decide)] <;>
    exact byte_ofNat_toNat (by omega)

/-! ### Register blocks (R154, R155) -/

/-- After a load of the bytes at I, V[r] is the byte at I + r (R155). -/
theorem State.reg_loadedRegs (s : State) {x r : Reg} (hr : r ≤ x) :
    (s.setRegsFrom 0 ((List.range (x.val + 1)).map fun k => s.byteAt (s.effAddr 0 + k))).reg r =
      s.byteAt (s.effAddr r.val) := by
  have hlen : r.val < x.val + 1 := Nat.lt_succ_of_le hr
  rw [State.reg_setRegsFrom, dif_pos (by simpa using hlen)]
  simp [State.effAddr]

@[simp] theorem State.bumpI_reg (s : State) (x r : Reg) : (s.bumpI x).reg r = s.reg r := by
  rcases s.bumpI_cases x with e | ⟨_, _, e⟩ <;> rw [e]
  rfl

/-- The optional increment of I leaves pc to the advance. -/
theorem bumpI_advance_pcPlus {s t : State} (x : Reg) (ht : t.pc = s.pc) :
    PcPlus 2 s ((t.bumpI x).advance 2) :=
  pcPlus_of_pc s _ 2 (by rw [State.advance_pc, State.bumpI_pc, ht])

/-- Settles O44: the stored bytes stand after the optional increment of I, which is the one other write. -/
theorem registerBlockIsStored : Obligations.RegisterBlockIsStored := by
  intro x s hm hw
  have hfit : s.effAddr 0 + (s.regBlock x).length ≤ memSize := by rw [s.regBlock_length]; exact hw.1
  refine ⟨_, execStoreRegs_of_writable x s hw, fun r hr => ?_, State.bumpI_I_toNat _ x,
    bumpI_advance_pcPlus x rfl,
    frame_bumpI _ s _ x 2 ((frame_writeAll s _ _ 0 hm hfit).of_advance.mono ?_) fun _ => .inr rfl⟩
  · rw [State.advance_byteAt, State.bumpI_byteAt, s.byteAt_storedRegs hm hw.1 hr]
  · rintro p ⟨k, hk, rfl⟩
    rw [s.regBlock_length] at hk
    exact .inl ⟨⟨k, by omega⟩, Nat.le_of_lt_succ hk, rfl⟩

/-- Settles O45: the loaded registers stand after the optional increment of I, which starts from the old I because
a load of registers keeps it. -/
theorem registerBlockIsLoaded : Obligations.RegisterBlockIsLoaded := by
  intro x s hr
  refine ⟨_, execLoadRegs_of_readable x s hr, fun r hrx => ?_, ?_,
    bumpI_advance_pcPlus x (State.setRegsFrom_pc s _ _),
    frame_bumpI _ s _ x 2 ((frame_setRegsFrom s _).mono ?_) fun _ => .inr rfl⟩
  · rw [State.advance_reg, State.bumpI_reg, s.reg_loadedRegs hrx]
  · rw [State.advance_I, State.bumpI_I_toNat, State.setRegsFrom_eq]
  · rintro p ⟨r, hrx, rfl⟩
    exact .inl ⟨r, Nat.le_of_lt_succ (by simpa using hrx), rfl⟩

end Sys2Proof.Machine
end

section
/-! SUPPORT. The display: what CLS and DRW do to each pixel and to VF, and that no other instruction touches it
(44_display R170 to R178). -/

namespace Sys2Proof.Machine

/-! ### A cleared display (R170) -/

/-- The state CLS completes in. -/
def State.cleared (s : State) : State :=
  (s.setDisp (Vector.replicate 32 (Vector.replicate 64 false))).advance 2

theorem exec_cls (s : State) : exec .cls s = .next s.cleared := rfl

@[simp] theorem State.cleared_pixelAt (s : State) (r : Fin 32) (c : Fin 64) : s.cleared.pixelAt r c = false := by
  simp [State.cleared]

/-- Settles O48, by the state CLS completes in. -/
theorem clearTurnsEveryPixelOff : Obligations.ClearTurnsEveryPixelOff := fun s =>
  ⟨s.cleared, exec_cls s, s.cleared_pixelAt, pcPlus_of_pc s _ 2 rfl, frame_setDisp s _ 2⟩

/-! ### Pixels that a sprite flips -/

/-- A lit pixel that was on is one that was on and is off now. -/
theorem Flips.lit_on_iff_erased {p : Prop} {old new : Bool} (f : Flips p old new) :
    p ∧ old = true ↔ old = true ∧ new = false := by
  obtain ⟨hlit, hdark⟩ := f
  by_cases hp : p
  · simp [hp, hlit hp]
  · simp [hp, hdark hp]

/-- Flipped a second time, a pixel is as it was. -/
theorem Flips.restores {p : Prop} {a b c : Bool} (f : Flips p a b) (g : Flips p b c) : c = a := by
  by_cases hp : p
  · rw [g.1 hp, f.1 hp, Bool.not_not]
  · rw [g.2 hp, f.2 hp]

/-- A flag byte reports the condition its flag decides. -/
theorem b2u_reports {c : Bool} {p : Prop} (h : c = true ↔ p) : (p → b2u c = 1) ∧ (¬ p → b2u c = 0) := by
  cases c <;> simp [← h, b2u]

/-! ### A drawn sprite (R171 to R177) -/

section
variable (s : State) (x y : Reg) (n : Fin 16)

/-- The state a DRW that can read its sprite completes in. -/
def State.afterDraw : State :=
  ((s.setDisp (s.drawn x y n.val).1).setFlag (s.drawn x y n.val).2).advance 2

theorem exec_drw_of_readable (h : readable (s.effAddr 0) n.val) :
    exec (.drw x y n) s = .next (s.afterDraw x y n) :=
  execDrw_of_readable x y n s h

theorem State.afterDraw_flips (r : Fin 32) (c : Fin 64) :
    Flips (s.spriteLit (s.effAddr 0) n.val (s.reg x) (s.reg y) r c) (s.pixelAt r c)
      ((s.afterDraw x y n).pixelAt r c) :=
  (composite_spec s (s.reg x) (s.reg y) (s.effAddr 0) n.val n.isLt).1 r c

/-- The compositor's flag says whether a pixel that was on is off after the draw (R173). -/
theorem State.drawn_flag_iff_erased : (s.drawn x y n.val).2 = true ↔
    ∃ r c, s.pixelAt r c = true ∧ (s.afterDraw x y n).pixelAt r c = false := by
  rw [State.drawn, (composite_spec s (s.reg x) (s.reg y) (s.effAddr 0) n.val n.isLt).2]
  exact exists₂_congr fun r c => (s.afterDraw_flips x y n r c).lit_on_iff_erased

theorem State.afterDraw_VF : (s.afterDraw x y n).reg VF = b2u (s.drawn x y n.val).2 :=
  State.reg_setFlag_same _ _

theorem State.afterDraw_reg {q : Reg} (h : q ≠ VF) : (s.afterDraw x y n).reg q = s.reg q :=
  State.reg_setFlag_ne _ _ q h

/-- VF after a draw reports an erased pixel, both ways. -/
theorem State.afterDraw_VF_reports :
    ((∃ r c, s.pixelAt r c = true ∧ (s.afterDraw x y n).pixelAt r c = false) → (s.afterDraw x y n).reg VF = 1) ∧
    ((¬ ∃ r c, s.pixelAt r c = true ∧ (s.afterDraw x y n).pixelAt r c = false) →
      (s.afterDraw x y n).reg VF = 0) := by
  rw [s.afterDraw_VF]
  exact b2u_reports (s.drawn_flag_iff_erased x y n)

/-- Drawn twice at coordinates that the flag does not overwrite, the same sprite flips the same pixels. -/
theorem State.afterDraw_twice_pixelAt (hx : x ≠ VF) (hy : y ≠ VF) (r : Fin 32) (c : Fin 64) :
    ((s.afterDraw x y n).afterDraw x y n).pixelAt r c = s.pixelAt r c := by
  have second := (s.afterDraw x y n).afterDraw_flips x y n r c
  rw [s.afterDraw_reg x y n hx, s.afterDraw_reg x y n hy] at second
  exact (s.afterDraw_flips x y n r c).restores second

end

/-- Settles O49, by the pixels the compositor flips. -/
theorem drawInvertsTheSpritesPixels : Obligations.DrawInvertsTheSpritesPixels := fun x y n s h =>
  ⟨s.afterDraw x y n, exec_drw_of_readable s x y n h, s.afterDraw_flips x y n, pcPlus_of_pc s _ 2 rfl,
    frame_draw s _ _ 2⟩

/-- Settles O50, by the compositor's flag. -/
theorem collisionFlagReportsAnErasedPixel : Obligations.CollisionFlagReportsAnErasedPixel := fun x y n s h =>
  ⟨s.afterDraw x y n, exec_drw_of_readable s x y n h, s.afterDraw_VF_reports x y n⟩

/-- Settles O52: the second draw erases exactly the pixels that the first turned on, because it restores `s`. -/
theorem doubleDrawRestoresTheDisplay : Obligations.DoubleDrawRestoresTheDisplay := by
  intro x y n s hx hy h
  have restored := s.afterDraw_twice_pixelAt x y n hx hy
  have flag := (s.afterDraw x y n).afterDraw_VF_reports x y n
  simp only [restored, and_comm (b := s.pixelAt _ _ = false)] at flag
  exact ⟨s.afterDraw x y n, (s.afterDraw x y n).afterDraw x y n, exec_drw_of_readable s x y n h,
    exec_drw_of_readable (s.afterDraw x y n) x y n h, restored, flag⟩

/-! ### The instructions that change the display (R178) -/

@[simp] theorem State.bumpI_disp (s : State) (x : Reg) : (s.bumpI x).disp = s.disp := by
  rcases s.bumpI_cases x with e | ⟨_, _, e⟩ <;> rw [e]
  rfl

@[simp] theorem State.setRegsFrom_disp (s : State) (k : Nat) (bs : List Byte) :
    (s.setRegsFrom k bs).disp = s.disp := by
  rw [State.setRegsFrom_eq]

theorem State.pixelAt_of_disp {s t : State} (h : t.disp = s.disp) (r : Fin 32) (c : Fin 64) :
    t.pixelAt r c = s.pixelAt r c := by
  rw [State.pixelAt, State.pixelAt, h]

/-- An execute phase keeps the display, or is a CLS that ends with every pixel off, or a DRW. -/
theorem exec_display {i : Instr} {s t : State} (h : exec i s = .next t) : t.disp = s.disp ∨
    (i = .cls ∧ ∀ r c, t.pixelAt r c = false) ∨ ∃ x y n, i = .drw x y n := by
  cases i with
  | cls => cases h; exact .inr (.inl ⟨rfl, s.cleared_pixelAt⟩)
  | drw x y n => exact .inr (.inr ⟨x, y, n, rfl⟩)
  | ret => rcases execRet_cases s with ⟨_, e⟩ | ⟨_, e⟩ <;> cases e.symm.trans h <;> exact .inl rfl
  | call nnn => rcases execCall_cases s nnn with ⟨_, e⟩ | ⟨_, e⟩ <;> cases e.symm.trans h <;> exact .inl rfl
  | skp x => rcases execSkp_cases s x with ⟨_, _, e⟩ | ⟨_, e⟩ <;> cases e.symm.trans h <;> exact .inl rfl
  | sknp x => rcases execSknp_cases s x with ⟨_, _, e⟩ | ⟨_, e⟩ <;> cases e.symm.trans h <;> exact .inl rfl
  | ldB x => rcases execLdB_cases s x with ⟨_, e⟩ | ⟨_, e⟩ <;> cases e.symm.trans h <;> exact .inl rfl
  | storeRegs x =>
    rcases execStoreRegs_cases s x with ⟨_, e⟩ | ⟨_, e⟩ <;> cases e.symm.trans h <;> exact .inl (by simp)
  | loadRegs x =>
    rcases execLoadRegs_cases s x with ⟨_, e⟩ | ⟨_, e⟩ <;> cases e.symm.trans h <;> exact .inl (by simp)
  | sys _ | jp _ | seByte _ _ | sneByte _ _ | seReg _ _ | ldByte _ _ | addByte _ _ | ldReg _ _
  | orReg _ _ | andReg _ _ | xorReg _ _ | addReg _ _ | sub _ _ | shr _ _ | subn _ _ | shl _ _ | sneReg _ _
  | ldI _ | jpV0 _ | rnd _ _ | ldVxDT _ | ldVxK _ | ldDTVx _ | ldSTVx _ | addI _ | ldF _ =>
    cases h
    exact .inl rfl

/-- A step keeps the display, or executes a CLS that ends with every pixel off, or a DRW. -/
theorem step_display {s t : State} (h : step s = .next t) : t.disp = s.disp ∨
    ∃ i, decodeWord (s.byteAt s.pc.toNat ++ s.byteAt (s.pc.toNat + 1)) = some i ∧
      ((i = .cls ∧ ∀ r c, t.pixelAt r c = false) ∨ ∃ x y n, i = .drw x y n) := by
  rcases step_cases s (running_of_step h) with
    ⟨_, e⟩ | ⟨_, ⟨_, e⟩ | ⟨i, hd, ⟨f, _, e⟩ | ⟨u, hx, _, _, e⟩⟩⟩ <;> cases e.symm.trans h
  · exact .inl rfl
  · exact .inl rfl
  · exact .inl rfl
  · rcases exec_display hx with hk | hi
    · exact .inl (by simpa using hk)
    · exact .inr ⟨i, hd, by simpa using hi⟩

/-- Settles O51: after a step that keeps the display no pixel differs, and after a CLS none is on. -/
theorem displayChangesOnlyThroughClsAndDrw : Obligations.DisplayChangesOnlyThroughClsAndDrw := by
  refine ⟨fun s t h => ⟨?_, ?_⟩, fun s i r c => rfl⟩
  · rintro ⟨r, c, hne⟩
    rcases step_display h with hk | ⟨i, hd, hi⟩
    · exact absurd (State.pixelAt_of_disp hk r c) hne
    · exact ⟨i, hd, hi.imp_left And.left⟩
  · rintro ⟨r, c, hoff, hon⟩
    rcases step_display h with hk | ⟨i, hd, ⟨_, hall⟩ | ⟨x, y, n, rfl⟩⟩
    · simp [State.pixelAt_of_disp hk, hoff] at hon
    · simp [hall] at hon
    · exact ⟨x, y, n, hd⟩

end Sys2Proof.Machine
end

section
/-! SUPPORT. Key and timer instructions: the effect of each, what of the timers an instruction reads and leaves,
and the timer phase around it in a whole step (45_timers_input R190 to R200). -/

namespace Sys2Proof.Machine

/-! ### Key skips (R190, R191, R218) -/

/-- SKP and SKNP skip by the state of the key that V[x] names. -/
theorem keySkips_of_key {s : State} {x : Reg} {k : Key} (hk : (s.reg x).toNat = k.val) :
    exec (.skp x) s = .next (s.skipIf (s.keyHeld k)) ∧ exec (.sknp x) s = .next (s.skipIf (!s.keyHeld k)) := by
  have same (q : Key) (hq : (s.reg x).toNat = q.val) : q = k := Fin.ext (hq.symm.trans hk)
  constructor
  · rcases execSkp_cases s x with ⟨q, hq, e⟩ | ⟨hno, _⟩
    · exact same q hq ▸ e
    · omega
  · rcases execSknp_cases s x with ⟨q, hq, e⟩ | ⟨hno, _⟩
    · exact same q hq ▸ e
    · omega

/-- SKP and SKNP fail where V[x] names no key. -/
theorem keySkips_of_noKey {s : State} {x : Reg} (hno : 0xF < (s.reg x).toNat) :
    exec (.skp x) s = .next (s.fail (.keyOutOfRange (s.reg x))) ∧
      exec (.sknp x) s = .next (s.fail (.keyOutOfRange (s.reg x))) := by
  constructor
  · rcases execSkp_cases s x with ⟨q, hq, _⟩ | ⟨_, e⟩
    · omega
    · exact e
  · rcases execSknp_cases s x with ⟨q, hq, _⟩ | ⟨_, e⟩
    · omega
    · exact e

/-- Settles O53: each of the two is a skip on its own condition, or the failure. -/
theorem keySkips : Obligations.KeySkips := by
  refine fun x s => ⟨fun k hk => ?_, keySkips_of_noKey⟩
  obtain ⟨hskp, hsknp⟩ := keySkips_of_key hk
  exact ⟨⟨_, hskp, skipIf_effect s (s.keyHeld k)⟩,
    ⟨_, hsknp, by simpa [State.keyHeld] using skipIf_effect s (!s.keyHeld k)⟩⟩

/-! ### Waiting for a key (R193) -/

/-- LD Vx, K with a key reported is a plain result. -/
theorem exec_ldVxK_of_key {s : State} (x : Reg) {k : Key} (h : s.input.lastKey = some k) :
    exec (.ldVxK x) s = .next (s.result x (BitVec.ofNat 8 k.val)) := by
  simp only [exec, execLdVxK, h]
  rfl

/-- LD Vx, K with no key reported answers the state it began in. -/
theorem exec_ldVxK_of_none {s : State} (x : Reg) (h : s.input.lastKey = none) :
    exec (.ldVxK x) s = .next s := by
  simp [exec, execLdVxK, h, State.advance, State.setPc]

/-- Settles O54, by whether a key is reported. -/
theorem waitForKeyStoresOrHolds : Obligations.WaitForKeyStoresOrHolds := by
  intro x s
  cases h : s.input.lastKey with
  | none => exact ⟨s, exec_ldVxK_of_none x h, (frame_setPc s s.pc).mono nofun, nofun, fun _ => ⟨rfl, rfl⟩⟩
  | some k =>
    refine ⟨_, exec_ldVxK_of_key x h, result_frame s x _, ?_, nofun⟩
    rintro _ ⟨⟩
    exact ⟨by rw [result_reg]; exact byte_ofNat_toNat (by omega), result_pcPlus s x _⟩

/-- Settles O26: the execute phase answers the state after the first place of the timer phase, and nothing but
the second place and the use of the inputs follows. -/
theorem waitingForAKeyHoldsTheBlock : Obligations.WaitingForAKeyHoldsTheBlock := by
  intro s x hs hpc hd hkey
  have hx : exec (.ldVxK x) s.timerBefore = .next s.timerBefore := exec_ldVxK_of_none x (by simpa using hkey)
  exact ⟨_, step_of_exec hs (Nat.lt_succ_of_le hpc) hd hx (by simp [hs]), by simp [hs]⟩

/-! ### Copies between a register and a timer (R192, R194, R195, R200) -/

theorem State.soundActive_iff (s : State) : s.soundActive = true ↔ 0 < s.ST.toNat := decide_eq_true_iff

/-- Settles O55: a plain result of DT, and two writes of a timer. -/
theorem timerInstructionsCopy : Obligations.TimerInstructionsCopy := fun x s =>
  ⟨⟨s.result x s.DT, rfl, result_reg s x _, result_pcPlus s x _, result_frame s x _⟩,
   ⟨(s.setDT (s.reg x)).advance 2, rfl, rfl, pcPlus_of_pc s _ 2 rfl, frame_setDT s _ 2⟩,
   ⟨(s.setST (s.reg x)).advance 2, rfl, rfl, pcPlus_of_pc s _ 2 rfl, frame_setST s _ 2, State.soundActive_iff _⟩,
   s.soundActive_iff⟩

/-! ### What an instruction reads and leaves of the timers (R199) -/

/-- What instruction `i` leaves in DT where it finds `d`. -/
def delayAfter (i : Instr) (s : State) (d : Byte) : Byte :=
  match i with
  | .ldDTVx x => s.reg x
  | _ => d

/-- What instruction `i` leaves in ST where it finds `e`. -/
def soundAfter (i : Instr) (s : State) (e : Byte) : Byte :=
  match i with
  | .ldSTVx x => s.reg x
  | _ => e

theorem delayAfter_of_ne {i : Instr} (h : ∀ x, i ≠ .ldDTVx x) (s : State) : delayAfter i s = id := by
  funext d
  unfold delayAfter
  split
  · next x => exact absurd rfl (h x)
  · rfl

theorem soundAfter_of_ne {i : Instr} (h : ∀ x, i ≠ .ldSTVx x) (s : State) : soundAfter i s = id := by
  funext e
  unfold soundAfter
  split
  · next x => exact absurd rfl (h x)
  · rfl

/-- `s` with `d` in DT and `e` in ST. -/
abbrev State.withTimers (s : State) (d e : Byte) : State := { s with DT := d, ST := e }

section
variable (d e : Byte)

theorem State.setMem_withTimers (s : State) (m : Memory) :
    (s.withTimers d e).setMem m = (s.setMem m).withTimers d e := rfl

theorem State.bumpI_withTimers (s : State) (x : Reg) :
    (s.withTimers d e).bumpI x = (s.bumpI x).withTimers d e := by
  unfold State.bumpI
  split <;> rfl

theorem State.setRegsFrom_withTimers (bs : List Byte) : ∀ (s : State) (k : Nat),
    (s.withTimers d e).setRegsFrom k bs = (s.setRegsFrom k bs).withTimers d e := by
  induction bs with
  | nil => intros; rfl
  | cons b bs ih =>
    intro s k
    unfold State.setRegsFrom
    split
    · exact ih (s.setReg ⟨k, by assumption⟩ b) (k + 1)
    · exact ih s (k + 1)

end

/-- With other timers an instruction does the same to everything else and leaves in each timer what it finds
there or writes there; LD Vx, DT must find the same DT. The conditions under which an instruction fails look at no
timer, so from `s` and from `s.withTimers d e` it ends in the same one of its cases. -/
theorem exec_withTimers {i : Instr} {s t : State} {d e : Byte} (hread : (∃ x, i = .ldVxDT x) → d = s.DT)
    (h : exec i s = .next t) :
    exec i (s.withTimers d e) = .next (t.withTimers (delayAfter i s d) (soundAfter i s e)) := by
  cases i with
  | ldVxDT x =>
    cases h
    obtain rfl := hread ⟨x, rfl⟩
    rfl
  | ret =>
    rcases execRet_cases s with ⟨hsaved, es⟩ | ⟨hnone, es⟩ <;> cases es.symm.trans h
    · obtain ⟨_, et⟩ := (execRet_cases (s.withTimers d e)).resolve_right fun c => hsaved.ne' c.1
      exact et
    · exact ((execRet_cases (s.withTimers d e)).resolve_left fun ⟨c, _⟩ => c.ne' hnone).2
  | call nnn =>
    rcases execCall_cases s nnn with ⟨hroom, es⟩ | ⟨hfull, es⟩ <;> cases es.symm.trans h
    · obtain ⟨_, et⟩ := (execCall_cases (s.withTimers d e) nnn).resolve_right fun c => hroom.ne c.1
      exact et
    · exact ((execCall_cases (s.withTimers d e) nnn).resolve_left fun ⟨c, _⟩ => c.ne hfull).2
  | skp x =>
    rcases execSkp_cases s x with ⟨k, hk, es⟩ | ⟨hno, es⟩ <;> cases es.symm.trans h
    · exact (keySkips_of_key (s := s.withTimers d e) hk).1
    · exact (keySkips_of_noKey (s := s.withTimers d e) hno).1
  | sknp x =>
    rcases execSknp_cases s x with ⟨k, hk, es⟩ | ⟨hno, es⟩ <;> cases es.symm.trans h
    · exact (keySkips_of_key (s := s.withTimers d e) hk).2
    · exact (keySkips_of_noKey (s := s.withTimers d e) hno).2
  | drw x y n =>
    rcases execDrw_cases s x y n with ⟨hr, es⟩ | ⟨hr, es⟩ <;> cases es.symm.trans h
    · exact execDrw_of_readable x y n (s.withTimers d e) hr
    · exact ((execDrw_cases (s.withTimers d e) x y n).resolve_left fun c => hr c.1).2
  | ldB x =>
    rcases execLdB_cases s x with ⟨hw, es⟩ | ⟨hw, es⟩ <;> cases es.symm.trans h
    · exact execLdB_of_writable x (s.withTimers d e) hw
    · exact ((execLdB_cases (s.withTimers d e) x).resolve_left fun c => hw c.1).2
  | storeRegs x =>
    rcases execStoreRegs_cases s x with ⟨hw, es⟩ | ⟨hw, es⟩ <;> cases es.symm.trans h
    · have et := execStoreRegs_of_writable x (s.withTimers d e) hw
      rw [State.setMem_withTimers, State.bumpI_withTimers] at et
      exact et
    · exact ((execStoreRegs_cases (s.withTimers d e) x).resolve_left fun c => hw c.1).2
  | loadRegs x =>
    rcases execLoadRegs_cases s x with ⟨hr, es⟩ | ⟨hr, es⟩ <;> cases es.symm.trans h
    · have et := execLoadRegs_of_readable x (s.withTimers d e) hr
      rw [State.setRegsFrom_withTimers, State.bumpI_withTimers] at et
      exact et
    · exact ((execLoadRegs_cases (s.withTimers d e) x).resolve_left fun c => hr c.1).2
  | cls | sys _ | jp _ | seByte _ _ | sneByte _ _ | seReg _ _ | ldByte _ _ | addByte _ _ | ldReg _ _
  | orReg _ _ | andReg _ _ | xorReg _ _ | addReg _ _ | sub _ _ | shr _ _ | subn _ _ | shl _ _ | sneReg _ _
  | ldI _ | jpV0 _ | rnd _ _ | ldVxK _ | ldDTVx _ | ldSTVx _ | addI _ | ldF _ =>
    cases h
    rfl

/-- With its own timers put back in, an instruction shows what it leaves in them. -/
theorem exec_timers {i : Instr} {s t : State} (h : exec i s = .next t) :
    t.DT = delayAfter i s s.DT ∧ t.ST = soundAfter i s s.ST := by
  have same : Host.Outcome.next t = .next (t.withTimers _ _) :=
    h.symm.trans (exec_withTimers (d := s.DT) (e := s.ST) (fun _ => rfl) h)
  injection same with same
  exact ⟨congrArg State.DT same, congrArg State.ST same⟩

/-- Settles O23: only LD Vx, DT asks for the same DT, and with the same DT every instruction leaves the same
there. -/
theorem timersAreSeenOnlyByTheirReader : Obligations.TimersAreSeenOnlyByTheirReader := by
  intro i s t d e h
  refine ⟨fun hi => ⟨_, exec_withTimers (fun ⟨x, hx⟩ => absurd hx (hi x)) h, rfl⟩,
    ⟨_, exec_withTimers (d := s.DT) (fun _ => rfl) h, ?_⟩⟩
  rw [← (exec_timers h).1]

/-! ### The timer phase around an instruction (R197, R198) -/

/-- What the timer phase of `s` makes of a timer that holds `b`. -/
def State.ticked (s : State) (b : Byte) : Byte := if s.epoch && s.input.tick then satDec b else b

theorem State.ticked_toNat (s : State) (b : Byte) : (s.ticked b).toNat =
    if s.epoch = true ∧ s.input.tick = true then b.toNat - 1 else b.toNat := by
  simp only [State.ticked, Bool.and_eq_true, apply_ite BitVec.toNat, satDec_toNat]

/-- What a step from `s` makes of a timer that holds `b`, when its instruction leaves `f c` where it finds `c`:
the place of the timer phase says which of the two comes first (D17). -/
def State.tickedAround (s : State) (f : Byte → Byte) (b : Byte) : Byte :=
  if s.params.timerPhase = .before then f (s.ticked b) else s.ticked (f b)

/-- A timer the instruction leaves alone is decremented once, whatever the place of the timer phase. -/
theorem State.tickedAround_id (s : State) (b : Byte) : s.tickedAround id b = s.ticked b := ite_self _

theorem SameControl.input {s t : State} (h : SameControl s t) : t.input = s.input := by
  unfold State.input
  rw [h.inputs, h.draw]

/-- The execute phase keeps what the timer phase looks at. -/
theorem SameControl.ticked {s t : State} (h : SameControl s t) : t.ticked = s.ticked := by
  funext b
  rw [State.ticked, State.ticked, h.epoch, h.input]

/-- The timers and the epoch after both places of the timer phase, around an instruction that completes. -/
theorem exec_timerAfter {s t : State} {i : Instr} (hx : exec i s.timerBefore = .next t)
    (hc : SameControl s.timerBefore t) :
    t.timerAfter.epoch = true ∧ t.timerAfter.DT = s.tickedAround (delayAfter i s) s.DT ∧
      t.timerAfter.ST = s.tickedAround (soundAfter i s) s.ST := by
  obtain ⟨hDT, hST⟩ := exec_timers hx
  have htp : t.params.timerPhase = s.params.timerPhase := by rw [hc.params, State.timerBefore_params]
  unfold State.tickedAround
  cases hp : s.params.timerPhase with
  | before =>
    rw [s.timerBefore_of_before hp] at hDT hST hc
    rw [t.timerAfter_of_before (htp.trans hp)]
    exact ⟨hc.epoch, hDT, hST⟩
  | after =>
    rw [s.timerBefore_of_after hp] at hDT hST hc
    rw [t.timerAfter_of_after (htp.trans hp), ← hDT, ← hST, ← hc.ticked]
    exact ⟨rfl, rfl, rfl⟩

/-- A step that completes ran its instruction between the two places of the timer phase. -/
theorem exec_of_completed_step {s t : State} {i : Instr} (hpc : s.pc.toNat + 1 < memSize)
    (hd : decodeWord (s.byteAt s.pc.toNat ++ s.byteAt (s.pc.toNat + 1)) = some i)
    (h : step s = .next t) (ht : t.status = .running) :
    ∃ u, exec i s.timerBefore = .next u ∧ SameControl s.timerBefore u ∧ t = u.timerAfter.nextInput := by
  rcases step_cases s (running_of_step h) with
    ⟨hout, _⟩ | ⟨_, ⟨hnone, _⟩ | ⟨j, hj, ⟨f, _, e⟩ | ⟨u, hx, hc, _, e⟩⟩⟩
  · exact absurd hpc hout
  · simp [hd] at hnone
  · cases e.symm.trans h
    cases ht
  · cases hj.symm.trans hd
    cases e.symm.trans h
    exact ⟨u, hx, hc, rfl⟩

/-- The timers and the epoch after a completed step. -/
theorem step_timers {s t : State} {i : Instr} (hpc : s.pc.toNat + 1 < memSize)
    (hd : decodeWord (s.byteAt s.pc.toNat ++ s.byteAt (s.pc.toNat + 1)) = some i)
    (h : step s = .next t) (ht : t.status = .running) :
    t.epoch = true ∧ t.DT = s.tickedAround (delayAfter i s) s.DT ∧
      t.ST = s.tickedAround (soundAfter i s) s.ST := by
  obtain ⟨u, hx, hc, rfl⟩ := exec_of_completed_step hpc hd h ht
  simpa using exec_timerAfter hx hc

/-- Settles O14: an instruction that does not write a timer leaves it to the timer phase. -/
theorem timersOfACompletedStep : Obligations.TimersOfACompletedStep := by
  intro s t i _ hpc hd h ht
  obtain ⟨hepoch, hDT, hST⟩ := step_timers (Nat.lt_succ_of_le hpc) hd h ht
  refine ⟨hepoch, fun hi => ?_, fun hi => ?_⟩
  · rw [hDT, delayAfter_of_ne hi, State.tickedAround_id, State.ticked_toNat]
  · rw [hST, soundAfter_of_ne hi, State.tickedAround_id, State.ticked_toNat]

theorem State.timerBefore_DT (s : State) :
    s.timerBefore.DT = if s.params.timerPhase = .before then s.ticked s.DT else s.DT := by
  cases hp : s.params.timerPhase <;> simp [hp, State.ticked]

/-- A step whose instruction completes keeps the registers it ends with and makes of the timers what the place of
the timer phase says. -/
theorem step_of_exec_timers {s u : State} {i : Instr} (hs : s.status = .running) (hpc : s.pc.toNat + 1 < memSize)
    (hd : decodeWord (s.byteAt s.pc.toNat ++ s.byteAt (s.pc.toNat + 1)) = some i)
    (hx : exec i s.timerBefore = .next u) (hu : u.status = s.timerBefore.status) :
    ∃ t, step s = .next t ∧ t.status = .running ∧ t.DT = s.tickedAround (delayAfter i s) s.DT ∧
      t.ST = s.tickedAround (soundAfter i s) s.ST ∧ ∀ q, t.reg q = u.reg q := by
  have hrun : u.status = .running := by rw [hu, State.timerBefore_status, hs]
  have h := step_of_exec hs hpc hd hx hrun
  have ht : u.timerAfter.nextInput.status = .running := by simp [hrun]
  obtain ⟨_, hDT, hST⟩ := step_timers hpc hd h ht
  exact ⟨_, h, ht, hDT, hST, by simp⟩

/-- Settles O15: LD Vx, DT copies the DT that the first place of the timer phase leaves, and what LD DT and LD ST
write meets the second. -/
theorem timerInstructionsMeetTheTimerPhase : Obligations.TimerInstructionsMeetTheTimerPhase := by
  intro s x hs hpc w dec
  replace hpc : s.pc.toNat + 1 < memSize := Nat.lt_succ_of_le hpc
  have hdec (b : Byte) : dec b = (s.ticked b).toNat := (s.ticked_toNat b).symm
  simp only [hdec, ← apply_ite BitVec.toNat]
  refine ⟨fun hd => ?_, fun hd => ?_, fun hd => ?_⟩
  · obtain ⟨t, h, ht, hDT, _, hreg⟩ :=
      step_of_exec_timers (u := s.timerBefore.result x s.timerBefore.DT) hs hpc hd rfl rfl
    refine ⟨t, h, ht, congrArg _ (hDT.trans (s.tickedAround_id s.DT)), ?_⟩
    rw [hreg, result_reg, State.timerBefore_DT]
  · obtain ⟨t, h, ht, hDT, _, _⟩ := step_of_exec_timers hs hpc hd rfl rfl
    exact ⟨t, h, ht, congrArg _ hDT⟩
  · obtain ⟨t, h, ht, _, hST, _⟩ := step_of_exec_timers hs hpc hd rfl rfl
    exact ⟨t, h, ht, congrArg _ hST⟩

end Sys2Proof.Machine
end

section
/-! SUPPORT. Which failure a step or an instruction takes, when, and with which info, and that a failed block stops
(60_exceptions R210 to R221). -/

namespace Sys2Proof.Machine

/-! ### Words that are no instruction, and failed blocks (R211, R221) -/

/-- Group 0x0 has no illegal word (30_encoding R74). -/
theorem decodeWord_of_group0 {w : Word} (h : w.toNat / 4096 = 0) : decodeWord w = some (decodeGroup0 w) := by
  have ho : fieldOp w = 0x0 := BitVec.eq_of_toNat_eq ((fieldOp_toNat w).trans h)
  simp [decodeWord, ho]

/-- Settles O9: of the four cases of a running block's step, only the failed decode has such a word. -/
theorem undefinedWordFails : Obligations.UndefinedWordFails := by
  refine ⟨fun s hs hpc hd => ?_, fun w hw => by rw [decodeWord_of_group0 hw]; rfl⟩
  rcases step_cases s hs with ⟨hout, _⟩ | ⟨_, ⟨_, e⟩ | ⟨i, hi, _⟩⟩
  · exact absurd (Nat.lt_succ_of_le hpc) hout
  · exact e
  · exact absurd (hd.symm.trans hi) nofun

/-- Settles O11: a step looks at `status` before anything else. -/
theorem failedBlockTakesNoStep : Obligations.FailedBlockTakesNoStep := by
  intro s f hs
  simp [step, hs]

/-! ### Accesses that are not allowed (R213 to R215, R219) -/

theorem not_readable_iff {a n : Nat} : ¬ readable a n ↔ 0 < n ∧ memSize < a + n := by
  unfold readable
  omega

theorem State.writeFailure_of_reserved {s : State} {a : Nat}
    (h : s.params.protectReserved = true ∧ a ≤ reservedEnd) : s.writeFailure a = .reservedWrite a :=
  if_pos h

theorem State.writeFailure_of_not_reserved {s : State} {a : Nat}
    (h : ¬ (s.params.protectReserved = true ∧ a ≤ reservedEnd)) :
    s.writeFailure a = .memWriteOutOfRange (max a memSize) :=
  if_neg h

/-- Writes of which not all are allowed start in the protected area, or reach beyond memory; the failure says
which. -/
theorem State.writeFailure_cases {s : State} {a n : Nat} (h : ¬ s.writable a n) :
    (s.params.protectReserved = true ∧ a ≤ reservedEnd ∧ s.writeFailure a = .reservedWrite a) ∨
    (¬ (s.params.protectReserved = true ∧ a ≤ reservedEnd) ∧ memSize < a + n ∧
      s.writeFailure a = .memWriteOutOfRange (max a memSize)) := by
  by_cases hr : s.params.protectReserved = true ∧ a ≤ reservedEnd
  · exact .inl ⟨hr.1, hr.2, State.writeFailure_of_reserved hr⟩
  · refine .inr ⟨hr, ?_, State.writeFailure_of_not_reserved hr⟩
    by_contra hin
    exact h ⟨Nat.le_of_not_lt hin, fun hp => Nat.lt_of_not_le fun ha => hr ⟨hp, ha⟩⟩

/-- LD B, Vx and LD [I], Vx that may not write all their `n` bytes fail. -/
theorem exec_of_not_writable {i : Instr} {n : Nat} {x : Reg} {s : State}
    (hi : (i = .ldB x ∧ n = 3) ∨ (i = .storeRegs x ∧ n = x.val + 1)) (h : ¬ s.writable (s.effAddr 0) n) :
    exec i s = .next (s.fail (s.writeFailure (s.effAddr 0))) := by
  rcases hi with ⟨rfl, rfl⟩ | ⟨rfl, rfl⟩
  · exact ((execLdB_cases s x).resolve_left fun hw => h hw.1).2
  · exact ((execStoreRegs_cases s x).resolve_left fun hw => h hw.1).2

/-- Settles O46: either condition forbids the writes, and it picks the failure. -/
theorem forbiddenWritesFail : Obligations.ForbiddenWritesFail := by
  refine fun i n x s hi => ⟨fun hr => ?_, fun hr hout => ?_⟩
  · rw [exec_of_not_writable hi fun hw => Nat.not_lt.mpr hr.2 (hw.2 hr.1),
      State.writeFailure_of_reserved hr]
    rfl
  · rw [exec_of_not_writable hi fun hw => Nat.not_lt.mpr hw.1 hout, State.writeFailure_of_not_reserved hr]
    rfl

/-- Settles O47: neither instruction completes where its bytes are not readable. -/
theorem readsBeyondMemoryFail : Obligations.ReadsBeyondMemoryFail := by
  intro i n x y s hi hout
  rcases hi with ⟨k, rfl, rfl, hpos⟩ | ⟨rfl, rfl⟩
  · exact ((execDrw_cases s x y k).resolve_left fun hr => not_readable_iff.mpr ⟨hpos, hout⟩ hr.1).2
  · exact ((execLoadRegs_cases s x).resolve_left
      fun hr => not_readable_iff.mpr ⟨Nat.succ_pos _, hout⟩ hr.1).2

/-! ### The failures of each instruction (R210, R213 to R219) -/

@[simp] theorem State.setRegsFrom_status (s : State) (k : Nat) (bs : List Byte) :
    (s.setRegsFrom k bs).status = s.status := by
  rw [State.setRegsFrom_eq]

/-- An instruction that ends in a failed state takes no path that keeps `status`. -/
theorem false_of_completes {s t u : State} {r : Result} {f : Failure} (hs : s.status = .running)
    (h : r = .next t) (ht : t.status = .failed f) (e : r = .next u) (hu : u.status = s.status) : False := by
  cases e.symm.trans h
  rw [hu, hs] at ht
  cases ht

/-- The failure that an instruction takes is the one its state ends with. -/
theorem failure_of_fails {s t : State} {r : Result} {f g : Failure} (h : r = .next t)
    (ht : t.status = .failed f) (e : r = .next (s.fail g)) : f = g := by
  cases e.symm.trans h
  cases ht
  rfl

/-- Settles O13, by the ways each instruction ends: those that complete keep `status`. -/
theorem failureKindsOfInstructions : Obligations.FailureKindsOfInstructions := by
  intro i s t f hs h ht
  have completes {u : State} (e : exec i s = .next u) (hu : u.status = s.status) : False :=
    false_of_completes hs h ht e hu
  have fails {g : Failure} (e : exec i s = .next (s.fail g)) : f = g := failure_of_fails h ht e
  cases i with
  | call nnn =>
    rcases execCall_cases s nnn with ⟨_, e⟩ | ⟨hfull, e⟩
    · exact (completes e rfl).elim
    · exact ⟨Fin.ext hfull, fails e⟩
  | ret =>
    rcases execRet_cases s with ⟨_, e⟩ | ⟨hnone, e⟩
    · exact (completes e rfl).elim
    · exact ⟨Fin.ext hnone, fails e⟩
  | skp x =>
    rcases execSkp_cases s x with ⟨_, _, e⟩ | ⟨hno, e⟩
    · exact (completes e rfl).elim
    · exact ⟨hno, fails e⟩
  | sknp x =>
    rcases execSknp_cases s x with ⟨_, _, e⟩ | ⟨hno, e⟩
    · exact (completes e rfl).elim
    · exact ⟨hno, fails e⟩
  | drw x y n =>
    rcases execDrw_cases s x y n with ⟨_, e⟩ | ⟨hr, e⟩
    · exact (completes e rfl).elim
    · obtain ⟨hpos, hout⟩ := not_readable_iff.mp hr
      exact ⟨hpos, hout, fails e⟩
  | loadRegs x =>
    rcases execLoadRegs_cases s x with ⟨_, e⟩ | ⟨hr, e⟩
    · exact (completes e (by simp)).elim
    · exact ⟨(not_readable_iff.mp hr).2, fails e⟩
  | ldB x =>
    rcases execLdB_cases s x with ⟨_, e⟩ | ⟨hw, e⟩
    · exact (completes e rfl).elim
    · rw [fails e]
      exact State.writeFailure_cases hw
  | storeRegs x =>
    rcases execStoreRegs_cases s x with ⟨_, e⟩ | ⟨hw, e⟩
    · exact (completes e (by simp)).elim
    · rw [fails e]
      exact State.writeFailure_cases hw
  | cls | sys _ | jp _ | seByte _ _ | sneByte _ _ | seReg _ _ | ldByte _ _ | addByte _ _ | ldReg _ _
  | orReg _ _ | andReg _ _ | xorReg _ _ | addReg _ _ | sub _ _ | shr _ _ | subn _ _ | shl _ _ | sneReg _ _
  | ldI _ | jpV0 _ | rnd _ _ | ldVxDT _ | ldVxK _ | ldDTVx _ | ldSTVx _ | addI _ | ldF _ =>
    exact completes rfl rfl

end Sys2Proof.Machine
end

section
/-! SUPPORT. The reset state field by field, the image it loads, and the defaults (00_scope R8; 20_memory R51;
70_reset_and_hazards R240 to R242). -/

namespace Sys2Proof.Machine

/-! ### The state before the image is loaded (R240) -/

@[simp] theorem State.initial_reg (p : Config.Params) (r : Reg) : (State.initial p).reg r = 0 :=
  Vector.getElem_replicate r.isLt

@[simp] theorem State.initial_stack_getElem (p : Config.Params) (k : Fin 16) :
    (State.initial p).stack[k.val] = 0 :=
  Vector.getElem_replicate k.isLt

@[simp] theorem State.initial_pixelAt (p : Config.Params) (r : Fin 32) (c : Fin 64) :
    (State.initial p).pixelAt r c = false := by
  simp [State.pixelAt, State.initial]

theorem State.initial_byteAt_font (p : Config.Params) {a : Nat} (h : a < 80) :
    (State.initial p).byteAt a = p.font[a] :=
  dif_pos h

theorem State.initial_byteAt_zero (p : Config.Params) {a : Nat} (h : 80 ≤ a) :
    (State.initial p).byteAt a = 0 :=
  dif_neg (Nat.not_lt.mpr h)

/-! ### The loaded image (R240, R242) -/

/-- Bytes written at `a` leave every byte below and above them. -/
theorem State.byteAt_writeAll_of_outside (s : State) {a q : Nat} {vs : List Byte} (hm : s.memOk)
    (ha : a + vs.length ≤ memSize) (hq : q < a ∨ a + vs.length ≤ q) :
    (s.setMem (Memory.writeAll s.params.font s.mem a vs)).byteAt q = s.byteAt q := by
  have unwritten : ¬ ∃ k < vs.length, Part.byte q = .byte (a + k) := by
    rintro ⟨k, hk, e⟩
    cases e
    omega
  exact (frame_writeAll s a vs 0 hm ha).memory q unwritten

/-- The font lies below every load address. -/
theorem font_below_loadAddress (o : Config.LoadOffset) : 80 ≤ (loadAddress o).toNat := by
  cases o <;> decide

/-- The state after reset with an image that fits. -/
def State.loaded (p : Config.Params) (image : List Byte) : State :=
  (State.initial p).setMem (Memory.writeAll p.font [] (loadAddress p.loadOffset).toNat image)

section
variable {p : Config.Params} {image : List Byte}
  (hfit : (loadAddress p.loadOffset).toNat + image.length ≤ memSize)
include hfit

theorem State.resetWith_of_fits : State.resetWith p image = .next (State.loaded p image) := by
  rcases State.resetWith_cases p image with ⟨_, e⟩ | ⟨hlong, _⟩
  · exact e
  · exact absurd hfit (Nat.not_le.mpr hlong)

theorem State.loaded_byteAt_image {k : Nat} (hk : k < image.length) :
    (State.loaded p image).byteAt ((loadAddress p.loadOffset).toNat + k) = image[k] :=
  (State.initial p).byteAt_writeAll _ image (State.initial_memOk p) hfit k hk

theorem State.loaded_byteAt_of_outside {a : Nat}
    (ha : a < (loadAddress p.loadOffset).toNat ∨ (loadAddress p.loadOffset).toNat + image.length ≤ a) :
    (State.loaded p image).byteAt a = (State.initial p).byteAt a :=
  (State.initial p).byteAt_writeAll_of_outside (State.initial_memOk p) hfit ha

theorem State.loaded_byteAt_font {a : Nat} (h : a < 80) : (State.loaded p image).byteAt a = p.font[a] :=
  (State.loaded_byteAt_of_outside hfit (.inl (Nat.lt_of_lt_of_le h (font_below_loadAddress p.loadOffset)))).trans
    (State.initial_byteAt_font p h)

end

theorem State.resetWith_of_too_long {p : Config.Params} {image : List Byte}
    (hlong : memSize < (loadAddress p.loadOffset).toNat + image.length) :
    State.resetWith p image = .refused (.imageTooLong image.length) := by
  rcases State.resetWith_cases p image with ⟨hfit, _⟩ | ⟨_, e⟩
  · exact absurd hfit (Nat.not_le.mpr hlong)
  · exact e

/-- Settles O1: loading touches memory alone, the image's bytes lie above the font, and every other byte is the
initial one. -/
theorem resetLoadsTheImage : Obligations.ResetLoadsTheImage := by
  refine fun p image => ⟨fun hfit => ?_, State.resetWith_of_too_long⟩
  exact ⟨State.loaded p image, State.resetWith_of_fits hfit,
    State.initial_reg p, rfl, rfl, rfl, rfl, State.initial_stack_getElem p, State.initial_pixelAt p,
    rfl, rfl, rfl, rfl,
    fun _ hk => State.loaded_byteAt_image hfit hk,
    fun _ h => State.loaded_byteAt_font hfit h,
    fun _ h _ hout => (State.loaded_byteAt_of_outside hfit hout).trans (State.initial_byteAt_zero p h)⟩

/-! ### The defaults (R241; 00_scope R8) -/

/-- Settles O2: the empty image fits and writes nothing, so the state is the initial one and its bytes are the
font's and zeros. -/
theorem resetIsTheEmptyImageAtTheDefaults : Obligations.ResetIsTheEmptyImageAtTheDefaults := by
  have fontByte {a : Nat} (h : a < 80) : State.reset.byteAt a = defaultFont[a] :=
    State.initial_byteAt_font defaultParams h
  have zeroByte {a : Nat} (h : 80 ≤ a) : State.reset.byteAt a = 0 :=
    State.initial_byteAt_zero defaultParams h
  exact ⟨State.resetWith_of_fits (image := []) (by decide), rfl, rfl, rfl, rfl, rfl, rfl, rfl,
    fontByte (by decide), fontByte (by decide), fontByte (by decide), zeroByte (by decide), zeroByte (by decide)⟩

end Sys2Proof.Machine
end
